-- ==== Sys2Proof/Word.lean ====
section
/-! DEFINITION. The two units of the core: the 8-bit byte and the 32-bit word (00_scope.md R9, R12). -/

namespace Sys2Proof

/-- A byte of the block buffer, of a payload or of output. -/
abbrev Byte := BitVec 8

/-- A word of state, key, block, chaining value, command stream or output stream (`WORD` of R9):
an unsigned 32-bit integer; `+` on it is addition modulo 2^32 (R12). -/
abbrev Word := BitVec 32

end Sys2Proof
end

