-- ==== Sys2Proof/Syntax.lean ====
section
/-! DEFINITION. The instructions: one constructor per row of spec/opcode_table.json (30_encoding.md R75), with the
operands of their formats (R71). Meaning is in Machine/ alone. -/

namespace Sys2Proof

/-- The opcodes of the table (30_encoding.md R75). -/
inductive Op where
  | initHash
  | initKeyedHash
  | initKdf
  | absorb
  | squeeze
  | reset
deriving DecidableEq, Repr

/-- The three command formats (30_encoding.md R71). -/
inductive Format where
  /-- header -/
  | H
  /-- header, `LEN_LO`, `LEN_HI` -/
  | HL
  /-- header, `LEN_LO`, `LEN_HI`, payload words -/
  | HLP
deriving DecidableEq, Repr

/-- The format column of R75. -/
def Op.format : Op → Format
  | .initHash => .H
  | .initKeyedHash => .HLP
  | .initKdf => .HLP
  | .absorb => .HLP
  | .squeeze => .HL
  | .reset => .H

/-- A command. `len` is `LEN`, the 64-bit byte count (R73); `payload` is the sequence of payload WORDS `PW` (R74), so a
command keeps every bit it was sent with, the ignored pad bytes among them. -/
inductive Instr where
  /-- `INIT_HASH` (44_modes.md R182) -/
  | initHash
  /-- `INIT_KEYED_HASH LEN, P` (44_modes.md R183) -/
  | initKeyedHash (len : BitVec 64) (payload : List Word)
  /-- `INIT_KDF LEN, P` (44_modes.md R184) -/
  | initKdf (len : BitVec 64) (payload : List Word)
  /-- `ABSORB LEN, P` (42_tree.md R141) -/
  | absorb (len : BitVec 64) (payload : List Word)
  /-- `SQUEEZE LEN` (43_output.md R164) -/
  | squeeze (len : BitVec 64)
  /-- `RESET` (44_modes.md R185) -/
  | reset
deriving DecidableEq, Repr

/-- The opcode of a command. -/
def Instr.op : Instr → Op
  | .initHash => .initHash
  | .initKeyedHash _ _ => .initKeyedHash
  | .initKdf _ _ => .initKdf
  | .absorb _ _ => .absorb
  | .squeeze _ => .squeeze
  | .reset => .reset

/-- `LEN`, 0 for the commands that have no length operand. -/
def Instr.len : Instr → BitVec 64
  | .initHash => 0
  | .initKeyedHash len _ => len
  | .initKdf len _ => len
  | .absorb len _ => len
  | .squeeze len => len
  | .reset => 0

/-- The payload words, none for the formats `H` and `HL`. -/
def Instr.payload : Instr → List Word
  | .initHash => []
  | .initKeyedHash _ payload => payload
  | .initKdf _ payload => payload
  | .absorb _ payload => payload
  | .squeeze _ => []
  | .reset => []

end Sys2Proof
end

