-- ==== Sys2Proof/WellFormed.lean ====
section
/-! DEFINITION. Which terms of `Instr` are commands: those with exactly `ceil(LEN/4)` payload words
(30_encoding.md R71, R74). `LEN` itself is any 64-bit number for every command that has it (R73). -/

namespace Sys2Proof

/-- `ceil(LEN/4)`, the number of payload words of format `HLP` (R71). -/
def payloadWords (len : BitVec 64) : Nat := (len.toNat + 3) / 4

/-- The check on a command's payload count; the formats without a payload have nothing to check. -/
def Instr.wellFormed : Instr → Bool
  | .initHash => true
  | .initKeyedHash len payload => payload.length == payloadWords len
  | .initKdf len payload => payload.length == payloadWords len
  | .absorb len payload => payload.length == payloadWords len
  | .squeeze _ => true
  | .reset => true

/-- A well-formed command, as a proposition. -/
abbrev Instr.WellFormed (i : Instr) : Prop := i.wellFormed = true

end Sys2Proof
end

