-- ==== Sys2Proof/Decode.lean ====
section
/-! DEFINITION. From command words to commands and back (30_encoding.md sections 1 and 2). The decoder is total on any
word sequence and rejects by name; the encoder writes the words of R71 from the same tables. -/

namespace Sys2Proof

/-- Why no command was read. -/
inductive DecodeError where
  /-- `RSVD != 0` or `OP` reserved (R77): an illegal header, whatever follows it. -/
  | illegalHeader
  /-- Words of the command are still missing (60_exceptions.md R209). -/
  | incomplete
deriving DecidableEq, Repr

/-- `OP = header[3:0]` (R72). -/
def opField (h : Word) : BitVec 4 := h.extractLsb' 0 4

/-- `RSVD = header[31:4]` (R72). -/
def rsvdField (h : Word) : BitVec 28 := h.extractLsb' 4 28

/-- The header word column of R75. -/
def Op.header : Op → Word
  | .initHash => 0x00000001
  | .initKeyedHash => 0x00000002
  | .initKdf => 0x00000003
  | .absorb => 0x00000004
  | .squeeze => 0x00000005
  | .reset => 0x00000006

/-- The opcode a header names, `none` for an illegal header (R72, R75, R77). -/
def Op.ofHeader (h : Word) : Option Op :=
  if rsvdField h = 0 then
    match (opField h).toNat with
    | 1 => some .initHash
    | 2 => some .initKeyedHash
    | 3 => some .initKdf
    | 4 => some .absorb
    | 5 => some .squeeze
    | 6 => some .reset
    | _ => none
  else none

/-- `LEN = zext_64(LEN_HI) << 32 | zext_64(LEN_LO)` (R73). -/
def lenOf (lo hi : Word) : BitVec 64 := (hi.zeroExtend 64 <<< 32) ||| lo.zeroExtend 64

/-- `LEN[31:0]`, the first length word (R71, R73). -/
def lenLo (len : BitVec 64) : Word := len.extractLsb' 0 32

/-- `LEN[63:32]`, the second length word (R71, R73). -/
def lenHi (len : BitVec 64) : Word := len.extractLsb' 32 32

/-- The length in words of the command with header `h` and length `len` (R76). -/
def nWords (h : Word) (len : BitVec 64) : Nat :=
  match Op.ofHeader h with
  | none => 1
  | some op =>
    match op.format with
    | .H => 1
    | .HL => 3
    | .HLP => 3 + payloadWords len

/-- The length in words of a command (R76), from its header and `LEN`. -/
def Instr.nWords (i : Instr) : Nat := Sys2Proof.nWords i.op.header i.len

/-- The operands of format `HLP` after the header: `LEN_LO`, `LEN_HI` and `ceil(LEN/4)` payload words, all of which must be
present (R71, R74; 60_exceptions.md R209). -/
def decodePayload (mk : BitVec 64 → List Word → Instr) : List Word → Except DecodeError (Instr × List Word)
  | lo :: hi :: ws =>
    let n := payloadWords (lenOf lo hi)
    if ws.length < n then .error .incomplete
    else .ok (mk (lenOf lo hi) (ws.take n), ws.drop n)
  | _ => .error .incomplete

/-- The command at the front of a word sequence, with the words after it. The header's legality is checked first, then that
all words are present (60_exceptions.md R202 checks 1 and 2). -/
def decode : List Word → Except DecodeError (Instr × List Word)
  | [] => .error .incomplete
  | h :: ws =>
    match Op.ofHeader h with
    | none => .error .illegalHeader
    | some .initHash => .ok (.initHash, ws)
    | some .initKeyedHash => decodePayload .initKeyedHash ws
    | some .initKdf => decodePayload .initKdf ws
    | some .absorb => decodePayload .absorb ws
    | some .squeeze =>
      match ws with
      | lo :: hi :: ws' => .ok (.squeeze (lenOf lo hi), ws')
      | _ => .error .incomplete
    | some .reset => .ok (.reset, ws)

/-- The words of a command, in stream order (R71). -/
def encode (i : Instr) : List Word :=
  match i.op.format with
  | .H => [i.op.header]
  | .HL => [i.op.header, lenLo i.len, lenHi i.len]
  | .HLP => i.op.header :: lenLo i.len :: lenHi i.len :: i.payload

/-- The low `nbits` bits of `w` as command words, bit 0 of `w` being bit 0 of the first word. -/
def wordsOfBits (nbits w : Nat) : List Word :=
  (List.range ((nbits + 31) / 32)).map fun k => BitVec.ofNat 32 ((w % 2 ^ nbits) >>> (32 * k))

/-- A table row's word as the words of a whole command: the words of `w`, then words of zeros as far as the command they begin
needs them (R76; log 14). -/
def tableWords (nbits w : Nat) : List Word :=
  let ws := wordsOfBits nbits w
  let need := nWords (ws.getD 0 0) (lenOf (ws.getD 1 0) (ws.getD 2 0))
  ws ++ List.replicate (need - ws.length) 0

/-- The instruction the decoder reads from a row of spec/opcode_table.json whose bits are `w`. -/
def decodeTableWord (nbits w : Nat) : Option Instr :=
  match decode (tableWords nbits w) with
  | .ok (i, _) => some i
  | .error _ => none

end Sys2Proof
end

