-- ==== Sys2Proof/Config.lean ====
section
/-! DEFINITION. The parameters of 00_scope.md section 3: the fixed ones of R9 and the one open one of R10.
The bounds 64, 1024 and 54 also stand as literals in the types of Machine/State.lean and in the operations, as the
spec's pseudocode writes them. -/

namespace Sys2Proof.Config

/-- `BLOCK_LEN`, bytes in a block (R9). -/
def blockLen : Nat := 64

/-- `CHUNK_LEN`, bytes in a full chunk (R9). -/
def chunkLen : Nat := 1024

/-- `STACK_CAP`, entries in the CV stack (R9). -/
def stackCap : Nat := 54

/-- `ROUNDS`, rounds per compression (R9). -/
def rounds : Nat := 7

/-- `KEY_LEN`, bytes of a keyed-hash key and of a derived key (R9). -/
def keyLen : Nat := 32

/-- `DIGEST_LEN`, output bytes of the one-shot pseudo-commands (R9). -/
def digestLen : BitVec 64 := 32

/-- `MAX_INPUT`, the largest total input one session accepts, in bytes (R9; 92_eei_decisions.md D12). -/
def maxInput : Nat := 2 ^ 64

/-- `CMD_LATENCY` (R10; 92_eei_decisions.md D20): the open parameter, by opcode, in an unstated unit of time. It has no body:
nothing can be proved about its value, and no definition of the model reads it (log 7). -/
opaque cmdLatency : BitVec 4 → Nat

end Sys2Proof.Config
end

