-- ==== Sys2Proof/Machine/State.lean ====
section
/-! DEFINITION. The architectural state of the core, whole (10_state.md R21), as plain data; the faults and refusals of a
step; the state right after hardware reset (R43). Fields carry the spec's names. Registers with a legal range are typed by it,
as R45 allows (log 5). -/

namespace Sys2Proof.Machine

/-- A chaining value or a key: 8 words (00_scope.md R9, R17). -/
abbrev CV := Vector Word 8

/-- A block, a schedule, a working state or a compression output: 16 words (00_scope.md R9). -/
abbrev Block := Vector Word 16

/-- The 64-byte block buffer, byte addresses 0 to 63 (20_memory.md R51). -/
abbrev BlockBuffer := Vector Byte 64

/-- The result codes of 60_exceptions.md R201; codes 5 to 15 are never written and have no constructor. -/
inductive ResultCode where
  /-- 0: the command succeeded. -/
  | ok
  /-- 1: `INIT_KEYED_HASH` with `LEN != 32`. -/
  | invalidKeyLength
  /-- 2: an illegal header. -/
  | illegalCommand
  /-- 3: `ABSORB`, `SQUEEZE` or `RESET` with no session. -/
  | noEngine
  /-- 4: an `ABSORB` past `MAX_INPUT`. -/
  | inputLimit
deriving DecidableEq, Repr

/-- The chunk state, the source's ChunkState (10_state.md section 3). -/
structure Chunk where
  /-- `CS_CV[0..7]`, the running chaining value (R25). -/
  csCv : CV
  /-- `CS_CTR`, the chunk counter (R26). -/
  csCtr : BitVec 64
  /-- `CS_BUF[0..63]`, the block buffer (R27). -/
  csBuf : BlockBuffer
  /-- `CS_BLEN`, the number of valid bytes in `CS_BUF`, 0 to 64 (R28). -/
  csBlen : Fin 65
  /-- `CS_BCOMP`, the number of blocks already compressed, 0 to 15 (R29). -/
  csBcomp : Fin 16
deriving DecidableEq, Repr

/-- The session: the key, the session flags, the current chunk and the CV stack (00_scope.md R17). -/
structure Session where
  /-- `KEY[0..7]` (R23). -/
  key : CV
  /-- `SFLAGS` (R24). -/
  sflags : Word
  /-- The chunk state (R25 to R29). -/
  chunk : Chunk
  /-- `STK[0..53][0..7]`, bottom first (R31). -/
  stk : Vector CV 54
  /-- `STK_DEPTH`, the number of valid entries, 0 to 54 (R32). -/
  stkDepth : Fin 55
deriving DecidableEq, Repr

/-- The architectural state (10_state.md R21) and the command stream the core reads (20_memory.md R52). `STATUS` is stored as
`result`, `errSeen` and (its `VALID` bit being a copy) `engineValid`, and read as a word by `State.status` (log 6). -/
structure State where
  /-- `ENGINE_VALID` (R22). -/
  engineValid : Bool
  /-- The session registers; meaningful while `engineValid` (R22). -/
  session : Session
  /-- `STATUS.RESULT` (R34). -/
  result : ResultCode
  /-- `STATUS.ERR_SEEN` (R34). -/
  errSeen : Bool
  /-- `CP`, the index of the next command word (R40). -/
  cp : Nat
  /-- `OUT`, every word emitted since hardware reset (R41). -/
  out : List Word
  /-- Every command word received since hardware reset, position 0 first (R40; 20_memory.md R52; log 2). -/
  stream : List Word
deriving DecidableEq, Repr

/-- What stops the machine: the internal faults of 60_exceptions.md R210, unreachable from any command stream
(42_tree.md R147). Both are safe: the model stops and claims no further state. -/
inductive Fault where
  /-- Raised by the stack push on a full stack (`ABSORB`, `INIT_KDF`). -/
  | stackOverflow
  /-- Raised by the stack pop on an empty stack (`ABSORB`, `INIT_KDF`). -/
  | stackUnderflow
deriving DecidableEq, Repr

/-- Why an instruction has no meaning. -/
inductive Refusal where
  /-- Raised by a dispatch arm whose instruction is not modelled yet, by its mnemonic; safe. No arm raises it now. -/
  | notModelled (mnemonic : String)
deriving DecidableEq, Repr

/-- Chunk registers all zero: the model's value for registers R43 leaves unspecified (DESIGN CHOICE, log 1). -/
def Chunk.zero : Chunk :=
  { csCv := Vector.replicate 8 0, csCtr := 0, csBuf := Vector.replicate 64 0, csBlen := 0, csBcomp := 0 }

/-- Session registers all zero: the model's value for registers R43 leaves unspecified (DESIGN CHOICE, log 1). -/
def Session.zero : Session :=
  { key := Vector.replicate 8 0, sflags := 0, chunk := Chunk.zero
    stk := Vector.replicate 54 (Vector.replicate 8 0), stkDepth := 0 }

/-- The state right after hardware reset (R43, 70_reset_and_hazards.md R231): no session, `STATUS` = 0, `CP` = 0, `OUT` empty,
no command word received; the session registers, unspecified by R43, at zero (DESIGN CHOICE, log 1). -/
def State.reset : State :=
  { engineValid := false, session := Session.zero, result := .ok, errSeen := false, cp := 0, out := [], stream := [] }

end Sys2Proof.Machine
end

