-- ==== Sys2Proof/Machine/Bytes.lean ====
section
/-! DEFINITION. Byte order and rotation: the conversions between bytes and words of 00_scope.md R12, R13, decided once for
payloads, blocks, keys and output (20_memory.md R54 to R57). -/

namespace Sys2Proof.Machine

/-- `rotr32(x, n)` for `0 < n < 32` (00_scope.md R12). -/
def rotr32 (x : Word) (n : Nat) : Word := (x >>> n) ||| (x <<< (32 - n))

/-- `LE32(b0, b1, b2, b3)` (00_scope.md R13). -/
def le32 (b0 b1 b2 b3 : Byte) : Word :=
  b0.zeroExtend 32 ||| (b1.zeroExtend 32 <<< 8) ||| (b2.zeroExtend 32 <<< 16) ||| (b3.zeroExtend 32 <<< 24)

/-- The four bytes of a word, low byte first (00_scope.md R13). -/
def wordBytes (w : Word) : List Byte :=
  [w.extractLsb' 0 8, w.extractLsb' 8 8, w.extractLsb' 16 8, w.extractLsb' 24 8]

/-- `bytes_le(W)` (00_scope.md R13). -/
def bytesLe (ws : List Word) : List Byte := ws.flatMap wordBytes

/-- `words_le(B)` (00_scope.md R13), for a length that is a multiple of 4; bytes of an incomplete last word would be left out,
and no rule asks for them. -/
def wordsLe : List Byte → List Word
  | b0 :: b1 :: b2 :: b3 :: bs => le32 b0 b1 b2 b3 :: wordsLe bs
  | _ => []

/-- `zeros(n)` (00_scope.md R14). -/
def zeros (n : Nat) : List Byte := List.replicate n 0

/-- A byte sequence as words, zero bytes filling the last one: the packing of output (43_output.md R164, R166), and of a payload
whose pad bytes are zero (30_encoding.md R74, R85). -/
def packBytes (bs : List Byte) : List Word := wordsLe (bs ++ zeros ((4 - bs.length % 4) % 4))

/-- Eight words from a word sequence; every rule gives it exactly eight (log 10). -/
def cvOfWords (ws : List Word) : CV := Vector.ofFn fun i => ws.getD i.val 0

end Sys2Proof.Machine
end

