-- ==== Sys2Proof/Machine/Compress.lean ====
section
/-! DEFINITION. The compression primitive (40_compression.md): constants, G, round, permute, compress, cv_of. All of it is pure;
the working state `V` and the schedule `M` are values here, not state (10_state.md R38; log 4). -/

namespace Sys2Proof.Machine

/-- `IV[0..7]` (40_compression.md R101). -/
def iv : CV :=
  #v[0x6A09E667, 0xBB67AE85, 0x3C6EF372, 0xA54FF53A, 0x510E527F, 0x9B05688C, 0x1F83D9AB, 0x5BE0CD19]

/-- `MSG_PERM[0..15]` (40_compression.md R102). -/
def msgPerm : Vector (Fin 16) 16 := #v[2, 6, 3, 10, 7, 0, 4, 13, 1, 11, 12, 5, 9, 14, 15, 8]

/-- `G(V, a, b, c, d, mx, my)`, the quarter-round (40_compression.md R103). -/
def g (v : Block) (a b c d : Fin 16) (mx my : Word) : Block :=
  let v := v.set a (v[a] + v[b] + mx)
  let v := v.set d (rotr32 (v[d] ^^^ v[a]) 16)
  let v := v.set c (v[c] + v[d])
  let v := v.set b (rotr32 (v[b] ^^^ v[c]) 12)
  let v := v.set a (v[a] + v[b] + my)
  let v := v.set d (rotr32 (v[d] ^^^ v[a]) 8)
  let v := v.set c (v[c] + v[d])
  v.set b (rotr32 (v[b] ^^^ v[c]) 7)

/-- `round(V, m)`: four column steps, then four diagonal steps (40_compression.md R104). -/
def mixRound (v m : Block) : Block :=
  let v := g v 0 4 8 12 m[0] m[1]
  let v := g v 1 5 9 13 m[2] m[3]
  let v := g v 2 6 10 14 m[4] m[5]
  let v := g v 3 7 11 15 m[6] m[7]
  let v := g v 0 5 10 15 m[8] m[9]
  let v := g v 1 6 11 12 m[10] m[11]
  let v := g v 2 7 8 13 m[12] m[13]
  g v 3 4 9 14 m[14] m[15]

/-- `permute(m)[i] = m[MSG_PERM[i]]` (40_compression.md R105). -/
def permute (m : Block) : Block := Vector.ofFn fun i => m[msgPerm[i]]

/-- The given number of rounds, the schedule permuted between rounds and not after the last (40_compression.md R107). -/
def mixRounds : Nat → Block → Block → Block
  | 0, v, _ => v
  | 1, v, m => mixRound v m
  | n + 2, v, m => mixRounds (n + 1) (mixRound v m) (permute m)

/-- The working state at the start of `compress` (30_encoding.md R81). -/
def initialState (cv : CV) (blen : Fin 65) (ctr : BitVec 64) (flags : Word) : Block :=
  #v[cv[0], cv[1], cv[2], cv[3], cv[4], cv[5], cv[6], cv[7], iv[0], iv[1], iv[2], iv[3],
    ctr.extractLsb' 0 32, ctr.extractLsb' 32 32, BitVec.ofNat 32 blen.val, flags]

/-- The output words from the mixed state and the input chaining value (40_compression.md R107, last loop;
30_encoding.md R84). -/
def foldState (v : Block) (cv : CV) : Block :=
  #v[v[0] ^^^ v[8], v[1] ^^^ v[9], v[2] ^^^ v[10], v[3] ^^^ v[11],
    v[4] ^^^ v[12], v[5] ^^^ v[13], v[6] ^^^ v[14], v[7] ^^^ v[15],
    v[8] ^^^ cv[0], v[9] ^^^ cv[1], v[10] ^^^ cv[2], v[11] ^^^ cv[3],
    v[12] ^^^ cv[4], v[13] ^^^ cv[5], v[14] ^^^ cv[6], v[15] ^^^ cv[7]]

/-- `compress(cv, block, blen, ctr, flags)` (40_compression.md R107). -/
def compress (cv : CV) (block : Block) (blen : Fin 65) (ctr : BitVec 64) (flags : Word) : Block :=
  foldState (mixRounds Config.rounds (initialState cv blen ctr flags) block) cv

/-- `cv_of(out) = out[0..7]` (40_compression.md R108). -/
def cvOf (out : Block) : CV := #v[out[0], out[1], out[2], out[3], out[4], out[5], out[6], out[7]]

end Sys2Proof.Machine
end

