-- ==== Sys2Proof/Machine/Flags.lean ====
section
/-! DEFINITION. The flag-like state of the core (10_state.md R42): the domain flags of a compression (30_encoding.md R79, R80)
and the `STATUS` word (10_state.md R34; 60_exceptions.md R201). There are no condition codes. -/

namespace Sys2Proof.Machine

/-- `CHUNK_START`: the first block of a chunk (R79). -/
def flagChunkStart : Word := 0x01

/-- `CHUNK_END`: the last block of a chunk (R79). -/
def flagChunkEnd : Word := 0x02

/-- `PARENT`: every parent node (R79). -/
def flagParent : Word := 0x04

/-- `ROOT`: every compression of the root node's squeeze (R79). -/
def flagRoot : Word := 0x08

/-- `KEYED_HASH`: every compression of a keyed-hash session (R79). -/
def flagKeyedHash : Word := 0x10

/-- `DERIVE_KEY_CONTEXT`: every compression of the KDF context session (R79). -/
def flagDeriveKeyContext : Word := 0x20

/-- `DERIVE_KEY_MATERIAL`: every compression of a KDF material session (R79). -/
def flagDeriveKeyMaterial : Word := 0x40

/-- `start_flag()` (41_chunk.md R122). -/
def Chunk.startFlag (c : Chunk) : Word := if c.csBcomp.val = 0 then flagChunkStart else 0

/-- The code of a result (60_exceptions.md R201). -/
def ResultCode.code : ResultCode → BitVec 4
  | .ok => 0
  | .invalidKeyLength => 1
  | .illegalCommand => 2
  | .noEngine => 3
  | .inputLimit => 4

/-- `STATUS` as the host reads it (10_state.md R34): `RESULT` in [3:0], `ERR_SEEN` in [4], `VALID`, a copy of `ENGINE_VALID`,
in [5], and 0 in [31:6]. -/
def State.status (s : State) : Word :=
  s.result.code.zeroExtend 32 ||| ((BitVec.ofBool s.errSeen).zeroExtend 32 <<< 4)
    ||| ((BitVec.ofBool s.engineValid).zeroExtend 32 <<< 5)

end Sys2Proof.Machine
end

