-- ==== Sys2Proof/Machine/Operands.lean ====
section
/-! DEFINITION. The operand form of a command: the payload bytes of format `HLP` (30_encoding.md R73, R74). -/

namespace Sys2Proof.Machine

/-- `P = bytes_le(PW)[0 .. LEN]` (30_encoding.md R74): the payload bytes; pad bytes of the last word are dropped. -/
def payloadBytes (len : BitVec 64) (pw : List Word) : List Byte := (bytesLe pw).take len.toNat

end Sys2Proof.Machine
end

