-- ==== Sys2Proof/Machine/Ops.lean ====
section
/-! DEFINITION. The named operations over the machine's state: the block buffer (00_scope.md R15), the CV stack
(42_tree.md R147), starting a chunk and a session (41_chunk.md R121; 44_modes.md R181), ending a command with success or with
an error (60_exceptions.md R203, R204), fetching words, and what the host does to the core (20_memory.md R52;
70_reset_and_hazards.md R231; 10_state.md R36). -/

namespace Sys2Proof.Machine

/-! ### The block buffer -/

/-- `MemRead(addr, n)` (00_scope.md R15). -/
def memRead (buf : BlockBuffer) (addr n : Nat) : List Byte := (buf.toList.drop addr).take n

/-- `MemWrite(addr, n, v)` (00_scope.md R15), `n` being the length of `v`; every other byte stays. -/
def memWrite (buf : BlockBuffer) (addr : Nat) (v : List Byte) : BlockBuffer :=
  Vector.ofFn fun i => if addr ≤ i.val ∧ i.val < addr + v.length then v.getD (i.val - addr) 0 else buf[i]

/-- `words_le(CS_BUF)`, the buffer as the 16 words of a block (20_memory.md R57; 30_encoding.md R82). -/
def blockWords (buf : BlockBuffer) : Block :=
  Vector.ofFn fun i => le32 (buf[4 * i.val]'(by omega)) (buf[4 * i.val + 1]'(by omega))
    (buf[4 * i.val + 2]'(by omega)) (buf[4 * i.val + 3]'(by omega))

/-! ### The chunk -/

/-- `chunk_len()` (10_state.md R30). -/
def Chunk.len (c : Chunk) : Nat := 64 * c.csBcomp.val + c.csBlen.val

/-- `chunk_start(ctr)` (41_chunk.md R121) on the chunk registers, with the session key. -/
def Chunk.start (key : CV) (ctr : BitVec 64) : Chunk :=
  { csCv := key, csCtr := ctr, csBuf := Vector.replicate 64 0, csBlen := 0, csBcomp := 0 }

/-- `chunk_start(ctr)` (41_chunk.md R121) in the session. -/
def Session.chunkStart (ses : Session) (ctr : BitVec 64) : Session :=
  { ses with chunk := Chunk.start ses.key ctr }

/-! ### The CV stack -/

/-- `push(cv)` (42_tree.md R147). -/
def Session.push (ses : Session) (cv : CV) : Except Fault Session :=
  if h : ses.stkDepth.val = 54 then .error .stackOverflow
  else .ok { ses with
    stk := ses.stk.set ses.stkDepth.val cv (by omega)
    stkDepth := ⟨ses.stkDepth.val + 1, by omega⟩ }

/-- `pop()` (42_tree.md R147): the entry and the session without it. -/
def Session.pop (ses : Session) : Except Fault (CV × Session) :=
  if h : ses.stkDepth.val = 0 then .error .stackUnderflow
  else .ok (ses.stk[ses.stkDepth.val - 1]'(by omega), { ses with stkDepth := ⟨ses.stkDepth.val - 1, by omega⟩ })

/-! ### The session -/

/-- `session_init(k, f)` (44_modes.md R181) on the session registers; the caller sets `ENGINE_VALID`. Stack entries stay where
they are and become invalid (log 17). -/
def Session.init (ses : Session) (k : CV) (f : Word) : Session :=
  ({ ses with key := k, sflags := f, stkDepth := 0 } : Session).chunkStart 0

/-- `total_absorbed()` (42_tree.md R141). -/
def Session.totalAbsorbed (ses : Session) : Nat := 1024 * ses.chunk.csCtr.toNat + ses.chunk.len

/-! ### Ending a command -/

/-- `raise <Result>` (60_exceptions.md R203; 00_scope.md R15): the whole effect of an error in a command of `n` words. There is no
trap entry and no return from one (R213, R214). -/
def State.raise (s : State) (code : ResultCode) (n : Nat) : State :=
  { s with result := code, errSeen := true, cp := s.cp + n }

/-- `finish OK` (60_exceptions.md R204) for a command of `n` words. -/
def State.finishOk (s : State) (n : Nat) : State := { s with result := .ok, cp := s.cp + n }

/-- The session registers after a construction, with `ENGINE_VALID <- 1` (44_modes.md R181). -/
def State.startSession (s : State) (ses : Session) : State := { s with engineValid := true, session := ses }

/-- The session registers after `ABSORB` or `RESET`. -/
def State.withSession (s : State) (ses : Session) : State := { s with session := ses }

/-- `emit` of a sequence of words (00_scope.md R15; 10_state.md R41). -/
def State.emit (s : State) (ws : List Word) : State := { s with out := s.out ++ ws }

/-- An illegal header: `ILLEGAL_COMMAND`, the header word alone consumed (60_exceptions.md R205; 30_encoding.md R77). -/
def State.illegalCommand (s : State) : State := s.raise .illegalCommand 1

/-- The core held at an incomplete command: nothing changes (60_exceptions.md R209; log 3). -/
def State.hold (s : State) : State := s

/-! ### The command stream and the host -/

/-- The words from `CP` on that the core has received (20_memory.md R52; 10_state.md R40). -/
def State.fetch (s : State) : List Word := s.stream.drop s.cp

/-- The host delivers command words (20_memory.md R52; 70_reset_and_hazards.md R236). -/
def State.receive (s : State) (ws : List Word) : State := { s with stream := s.stream ++ ws }

/-- The host asserts hardware reset (70_reset_and_hazards.md R231; 10_state.md R43): `junk` is what the session registers, which
become unspecified, happen to hold. Words received before are gone with the old stream (log 12). -/
def State.hardReset (_ : State) (junk : Session) : State :=
  { engineValid := false, session := junk, result := .ok, errSeen := false, cp := 0, out := [], stream := [] }

/-- What the host may read between commands: `STATUS` and `OUT` (10_state.md R36). -/
def State.hostView (s : State) : Word × List Word := (s.status, s.out)

/-- The observation of a run: `OUT`, `STATUS` and `CP` (70_reset_and_hazards.md R242). -/
def State.observation (s : State) : List Word × Word × Nat := (s.out, s.status, s.cp)

/-- The state element with a number (10_state.md R35); `none` for the numbers that name nothing. -/
def State.element (s : State) (n : Nat) : Option Word :=
  if n = 0x000 then some s.status
  else if n = 0x001 then some s.session.sflags
  else if n = 0x002 then some ((BitVec.ofBool s.engineValid).zeroExtend 32)
  else if n = 0x003 then some (BitVec.ofNat 32 s.session.chunk.csBlen.val)
  else if n = 0x004 then some (BitVec.ofNat 32 s.session.chunk.csBcomp.val)
  else if n = 0x005 then some (BitVec.ofNat 32 s.session.stkDepth.val)
  else if n = 0x006 then some (s.session.chunk.csCtr.extractLsb' 0 32)
  else if n = 0x007 then some (s.session.chunk.csCtr.extractLsb' 32 32)
  else if n < 0x010 then s.session.key[n - 0x008]?
  else if n < 0x018 then s.session.chunk.csCv[n - 0x010]?
  else if n < 0x020 then none
  else if n < 0x030 then (wordsLe (memRead s.session.chunk.csBuf (4 * (n - 0x020)) 4))[0]?
  else if n < 0x100 then none
  else match s.session.stk[(n - 0x100) / 8]? with
    | some entry => entry[(n - 0x100) % 8]?
    | none => none

end Sys2Proof.Machine
end

