-- ==== Sys2Proof/Machine/Node.lean ====
section
/-! DEFINITION. Nodes of the tree as Output values (10_state.md R37), their chaining value (43_output.md R161), and parent nodes
(42_tree.md R145, R146). -/

namespace Sys2Proof.Machine

/-- `Output(cv, block, ctr, blen, flags)` (10_state.md R37): a value, not state (log 4). -/
structure Output where
  /-- `O_CV` -/
  cv : CV
  /-- `O_BLOCK` -/
  block : Block
  /-- `O_CTR` -/
  ctr : BitVec 64
  /-- `O_BLEN` -/
  blen : Fin 65
  /-- `O_FLAGS` -/
  flags : Word
deriving DecidableEq, Repr

/-- `output_cv(o)`, the chaining-value path (43_output.md R161). -/
def outputCv (o : Output) : CV := cvOf (compress o.cv o.block o.blen o.ctr o.flags)

/-- `parent_output(left, right)` (42_tree.md R145; block layout 30_encoding.md R83), with the session's key and flags. -/
def parentOutput (key : CV) (sflags : Word) (left right : CV) : Output :=
  { cv := key
    block := #v[left[0], left[1], left[2], left[3], left[4], left[5], left[6], left[7],
      right[0], right[1], right[2], right[3], right[4], right[5], right[6], right[7]]
    ctr := 0, blen := 64, flags := sflags ||| flagParent }

/-- `parent_cv(left, right)` (42_tree.md R146). -/
def parentCv (key : CV) (sflags : Word) (left right : CV) : CV := outputCv (parentOutput key sflags left right)

end Sys2Proof.Machine
end

