-- ==== Sys2Proof/Machine/Chunk.lean ====
section
/-! DEFINITION. The chunk accumulator (41_chunk.md): appending bytes, compressing a full block once more input has arrived, and
the current chunk as an Output. These act on the chunk registers alone; the session key and flags come as arguments. -/

namespace Sys2Proof.Machine

/-- The compression of a full, non-final block and the clearing of the buffer (41_chunk.md R124, R125). -/
def Chunk.compressBlock (sflags : Word) (c : Chunk) : Chunk :=
  { c with
    csCv := cvOf (compress c.csCv (blockWords c.csBuf) 64 c.csCtr (sflags ||| c.startFlag))
    csBcomp := c.csBcomp + 1
    csBuf := Vector.replicate 64 0
    csBlen := 0 }

/-- How many of `n` waiting bytes the buffer takes (41_chunk.md R124, `take`). -/
def Chunk.room (c : Chunk) (n : Nat) : Nat := min (64 - c.csBlen.val) n

/-- One copy step of `chunk_update`: as many bytes of `d` as fit (41_chunk.md R124). -/
def Chunk.copyIn (c : Chunk) (d : List Byte) : Chunk :=
  { c with
    csBuf := memWrite c.csBuf c.csBlen.val (d.take (c.room d.length))
    csBlen := ⟨c.csBlen.val + c.room d.length, by have := c.csBlen.isLt; unfold Chunk.room; omega⟩ }

/-- The top of the copy loop: a full buffer is compressed, now that one more byte follows (41_chunk.md R124, R126). -/
def Chunk.makeRoom (sflags : Word) (c : Chunk) : Chunk :=
  if c.csBlen.val = 64 then c.compressBlock sflags else c

/-- The loop of `chunk_update` (41_chunk.md R124). The first argument bounds the passes; each takes at least one byte, so the
number of bytes is enough (log 11). -/
def Chunk.updateLoop (sflags : Word) : Nat → Chunk → List Byte → Chunk
  | 0, c, _ => c
  | _ + 1, c, [] => c
  | k + 1, c, b :: bs =>
    let c' := c.makeRoom sflags
    Chunk.updateLoop sflags k (c'.copyIn (b :: bs)) ((b :: bs).drop (c'.room (b :: bs).length))

/-- `chunk_update(D)` (41_chunk.md R124). -/
def Chunk.update (sflags : Word) (c : Chunk) (d : List Byte) : Chunk := Chunk.updateLoop sflags d.length c d

/-- `chunk_output()` (41_chunk.md R127). -/
def Chunk.output (sflags : Word) (c : Chunk) : Output :=
  { cv := c.csCv, block := blockWords c.csBuf, ctr := c.csCtr, blen := c.csBlen
    flags := sflags ||| c.startFlag ||| flagChunkEnd }

/-- `chunk_update(D)` in the session (41_chunk.md R124). -/
def Session.chunkUpdate (ses : Session) (d : List Byte) : Session :=
  { ses with chunk := ses.chunk.update ses.sflags d }

/-- `chunk_output()` of the session (41_chunk.md R127). -/
def Session.chunkOutput (ses : Session) : Output := ses.chunk.output ses.sflags

end Sys2Proof.Machine
end

