-- ==== Sys2Proof/Machine/Finalizer.lean ====
section
/-! DEFINITION. The output finalizer and `SQUEEZE` (43_output.md). -/

namespace Sys2Proof.Machine

/-- One output block: the 64 bytes of the root compression with output block counter `ctr` (43_output.md R162). -/
def rootBlockBytes (o : Output) (ctr : BitVec 64) : List Byte :=
  bytesLe (compress o.cv o.block o.blen ctr (o.flags ||| flagRoot)).toList

/-- The loop of `root_output_bytes` (43_output.md R162): blocks left, `outputBlockCounter`, bytes still wanted. -/
def rootOutputLoop (o : Output) : Nat → BitVec 64 → Nat → List Byte
  | 0, _, _ => []
  | k + 1, ctr, n => (rootBlockBytes o ctr).take (min 64 n) ++ rootOutputLoop o k (ctr + 1) (n - min 64 n)

/-- `root_output_bytes(o, n)` (43_output.md R162): `ceil(n/64)` output blocks, counted from 0, cut to `n` bytes. -/
def rootOutputBytes (o : Output) (n : Nat) : List Byte := rootOutputLoop o ((n + 63) / 64) 0 n

/-- The fold of `root_output` over the stack entries `d-1` down to 0 (43_output.md R163). -/
def Session.foldStack (ses : Session) : (d : Nat) → d ≤ 54 → Output → Output
  | 0, _, o => o
  | d + 1, h, o => Session.foldStack ses d (by omega) (parentOutput ses.key ses.sflags ses.stk[d] (outputCv o))

/-- `root_output()` (43_output.md R163). -/
def Session.rootOutput (ses : Session) : Output :=
  ses.foldStack ses.stkDepth.val (by omega) ses.chunkOutput

/-- `SQUEEZE LEN` (43_output.md R164, R165, R166). -/
def execSqueeze (len : BitVec 64) (s : State) : Host.Outcome State Fault Refusal :=
  let n := nWords Op.squeeze.header len
  if s.engineValid = false then .next (s.raise .noEngine n)
  else .next ((s.emit (packBytes (rootOutputBytes s.session.rootOutput len.toNat))).finishOk n)

end Sys2Proof.Machine
end

