-- ==== Sys2Proof/Machine/Tree.lean ====
section
/-! DEFINITION. The tree engine and `ABSORB` (42_tree.md). -/

namespace Sys2Proof.Machine

/-- The loop of `add_chunk_cv` (42_tree.md R144). The first argument bounds the passes; each but the last pops one entry, so one
more than the stack depth is enough, and the bound itself is never what ends the loop (log 11). -/
def Session.mergeLoop : Nat → Session → CV → BitVec 64 → Except Fault Session
  | 0, _, _, _ => .error .stackUnderflow
  | k + 1, ses, cv, total =>
    if total.getLsbD 0 then ses.push cv
    else
      match ses.pop with
      | .error f => .error f
      | .ok (left, ses') => Session.mergeLoop k ses' (parentCv ses'.key ses'.sflags left cv) (total >>> 1)

/-- `add_chunk_cv(cv, total)` (42_tree.md R144). -/
def Session.addChunkCv (ses : Session) (cv : CV) (total : BitVec 64) : Except Fault Session :=
  Session.mergeLoop (ses.stkDepth.val + 1) ses cv total

/-- The completion of a full chunk: its chaining value, without `ROOT`, merged into the stack, and the next chunk started
(42_tree.md R142, R143). -/
def Session.completeChunk (ses : Session) : Except Fault Session :=
  match ses.addChunkCv (outputCv ses.chunkOutput) (ses.chunk.csCtr + 1) with
  | .error f => .error f
  | .ok ses' => .ok (ses'.chunkStart (ses.chunk.csCtr + 1))

/-- The top of the input loop: a chunk of exactly 1024 bytes is completed, now that one more byte follows (42_tree.md R142, R143). -/
def Session.makeRoom (ses : Session) : Except Fault Session :=
  if ses.chunk.len = 1024 then ses.completeChunk else .ok ses

/-- The loop of `input_data` (42_tree.md R142). The first argument bounds the passes; each takes at least one byte, so the number
of bytes is enough (log 11). -/
def Session.inputLoop : Nat → Session → List Byte → Except Fault Session
  | 0, ses, _ => .ok ses
  | _ + 1, ses, [] => .ok ses
  | k + 1, ses, b :: bs =>
    match ses.makeRoom with
    | .error f => .error f
    | .ok ses' =>
      let n := min (1024 - ses'.chunk.len) (b :: bs).length
      Session.inputLoop k (ses'.chunkUpdate ((b :: bs).take n)) ((b :: bs).drop n)

/-- `input_data(D)` (42_tree.md R142). -/
def Session.inputData (ses : Session) (d : List Byte) : Except Fault Session := Session.inputLoop d.length ses d

/-- `ABSORB LEN, P` (42_tree.md R141). -/
def execAbsorb (len : BitVec 64) (payload : List Word) (s : State) : Host.Outcome State Fault Refusal :=
  let n := nWords Op.absorb.header len
  if s.engineValid = false then .next (s.raise .noEngine n)
  else if s.session.totalAbsorbed + len.toNat > Config.maxInput then .next (s.raise .inputLimit n)
  else
    match s.session.inputData (payloadBytes len payload) with
    | .error f => .fault f
    | .ok ses => .next ((s.withSession ses).finishOk n)

end Sys2Proof.Machine
end

