-- ==== Sys2Proof/Machine/Modes.lean ====
section
/-! DEFINITION. The mode constructors `INIT_HASH`, `INIT_KEYED_HASH`, `INIT_KDF` and the command `RESET` (44_modes.md). -/

namespace Sys2Proof.Machine

/-- `INIT_HASH` (44_modes.md R182). -/
def execInitHash (s : State) : Host.Outcome State Fault Refusal :=
  .next ((s.startSession (s.session.init iv 0)).finishOk (nWords Op.initHash.header 0))

/-- `INIT_KEYED_HASH LEN, P` (44_modes.md R183). -/
def execInitKeyedHash (len : BitVec 64) (payload : List Word) (s : State) : Host.Outcome State Fault Refusal :=
  let n := nWords Op.initKeyedHash.header len
  if len.toNat ≠ Config.keyLen then .next (s.raise .invalidKeyLength n)
  else
    let k := cvOfWords (wordsLe (payloadBytes len payload))
    .next ((s.startSession (s.session.init k flagKeyedHash)).finishOk n)

/-- The derived key of a context session (44_modes.md R184): its 32 bytes of root output as 8 little-endian words. -/
def Session.derivedKey (context : Session) : CV :=
  cvOfWords (wordsLe (rootOutputBytes context.rootOutput Config.keyLen))

/-- `INIT_KDF LEN, P` (44_modes.md R184). -/
def execInitKdf (len : BitVec 64) (payload : List Word) (s : State) : Host.Outcome State Fault Refusal :=
  let n := nWords Op.initKdf.header len
  match (s.session.init iv flagDeriveKeyContext).inputData (payloadBytes len payload) with
  | .error f => .fault f
  | .ok context => .next ((s.startSession (context.init context.derivedKey flagDeriveKeyMaterial)).finishOk n)

/-- `RESET` (44_modes.md R185). -/
def execReset (s : State) : Host.Outcome State Fault Refusal :=
  let n := nWords Op.reset.header 0
  if s.engineValid = false then .next (s.raise .noEngine n)
  else .next ((s.withSession (s.session.init s.session.key s.session.sflags)).finishOk n)

end Sys2Proof.Machine
end

