-- ==== Sys2Proof/Machine/Dispatch.lean ====
section
/-! DEFINITION. One arm per constructor of Instr, each one direct call of its meaning. -/

namespace Sys2Proof.Machine

/-- The meaning of a command. -/
def exec (i : Instr) (s : State) : Host.Outcome State Fault Refusal :=
  match i with
  | .initHash => Sys2Proof.Machine.execInitHash s
  | .initKeyedHash len payload => Sys2Proof.Machine.execInitKeyedHash len payload s
  | .initKdf len payload => Sys2Proof.Machine.execInitKdf len payload s
  | .absorb len payload => Sys2Proof.Machine.execAbsorb len payload s
  | .squeeze len => Sys2Proof.Machine.execSqueeze len s
  | .reset => Sys2Proof.Machine.execReset s

end Sys2Proof.Machine
end

