-- ==== Sys2Proof/Machine/Fetch.lean ====
section
/-! DEFINITION. Placing a table row's words where the next step fetches, for `State.withFetchWord`. -/

namespace Sys2Proof.Machine

/-- The stream with `ws` at position `CP`: the words before it stay (words of zeros where the stream is shorter than `CP`, which
no run leaves it), what followed is dropped (log 14). -/
def State.streamAtCp (s : State) (ws : List Word) : List Word :=
  (s.stream ++ List.replicate (s.cp - s.stream.length) 0).take s.cp ++ ws

end Sys2Proof.Machine
end

