-- ==== Sys2Proof/Machine/Step.lean ====
section
/-! DEFINITION. One step: the command at `CP` is read and executed; an illegal header completes with its result; at an incomplete
command, or at the end of the words received, the core is held (60_exceptions.md R202, R205, R209). -/

namespace Sys2Proof.Machine

/-- One step of the core. -/
def step (s : State) : Host.Outcome State Fault Refusal :=
  match decode s.fetch with
  | .ok (i, _) => exec i s
  | .error .illegalHeader => .next s.illegalCommand
  | .error .incomplete => .next s.hold

/-- `s` with a table row's command placed where `step` fetches. This stands for the host's load of a program: the words of a
program come from outside, by the command port (log 2). -/
def State.withFetchWord (s : State) (nbits w : Nat) : State :=
  { s with stream := s.streamAtCp (tableWords nbits w) }

end Sys2Proof.Machine
end

