-- ==== Sys2Proof/Machine/Pseudo.lean ====
section
/-! DEFINITION. Pseudo-commands and the assembly notation (30_encoding.md R85, R86; 44_modes.md R188 to R190). They have no encoding
of their own: they are sequences of commands. -/

namespace Sys2Proof.Machine

/-- The length operand of a byte sequence; a sequence of 2^64 bytes or more has none. -/
def lenOfBytes (bs : List Byte) : BitVec 64 := BitVec.ofNat 64 bs.length

/-- `INIT_KEYED_HASH n, bytes`, pad bytes zero (R85). -/
def initKeyedHashOf (key : List Byte) : Instr := .initKeyedHash (lenOfBytes key) (packBytes key)

/-- `INIT_KDF n, bytes`, pad bytes zero (R85). -/
def initKdfOf (context : List Byte) : Instr := .initKdf (lenOfBytes context) (packBytes context)

/-- `ABSORB n, bytes`, pad bytes zero (R85). -/
def absorbOf (data : List Byte) : Instr := .absorb (lenOfBytes data) (packBytes data)

/-- The pseudo-commands (30_encoding.md R86). -/
inductive Pseudo where
  /-- `HASH n, data` -/
  | hash (data : List Byte)
  /-- `KEYED_HASH k, key, n, data` -/
  | keyedHash (key data : List Byte)
  /-- `DERIVE_KEY c, context, n, material, m` -/
  | deriveKey (context material : List Byte) (m : BitVec 64)
deriving DecidableEq, Repr

/-- The expansions of 30_encoding.md R86 (44_modes.md R188, R189, R190). -/
def Pseudo.expand : Pseudo → List Instr
  | .hash data => [.initHash, absorbOf data, .squeeze Config.digestLen]
  | .keyedHash key data => [initKeyedHashOf key, absorbOf data, .squeeze Config.digestLen]
  | .deriveKey context material m => [initKdfOf context, absorbOf material, .squeeze m]

/-- The command words of a command list, in stream order. -/
def assemble (is : List Instr) : List Word := is.flatMap encode

/-- Commands executed in order, stopping at the first fault or refusal (20_memory.md R60). -/
def execAll : List Instr → State → Host.Outcome State Fault Refusal
  | [], s => .next s
  | i :: is, s =>
    match exec i s with
    | .next s' => execAll is s'
    | .fault f => .fault f
    | .refused r => .refused r

/-- The mnemonic of an opcode (30_encoding.md R75). -/
def opMnemonic : Op → String
  | .initHash => "INIT_HASH"
  | .initKeyedHash => "INIT_KEYED_HASH"
  | .initKdf => "INIT_KDF"
  | .absorb => "ABSORB"
  | .squeeze => "SQUEEZE"
  | .reset => "RESET"

/-- A byte as two hexadecimal digits. -/
def hexByte (b : Byte) : String :=
  String.ofList [Nat.digitChar (b.toNat / 16), Nat.digitChar (b.toNat % 16)]

/-- A command in the assembly notation of 30_encoding.md R85, payload in the hexadecimal form. -/
def asmLine (i : Instr) : String :=
  match i.op.format with
  | .H => opMnemonic i.op
  | .HL => opMnemonic i.op ++ " " ++ toString i.len.toNat
  | .HLP => opMnemonic i.op ++ " " ++ toString i.len.toNat ++ ", x\""
      ++ String.join ((payloadBytes i.len i.payload).map hexByte) ++ "\""

end Sys2Proof.Machine
end

