-- ==== Sys2Proof/Safety.lean ====
section
/-! DEFINITION. The terms claims are stated in: legal sessions and the machine's invariant (10_state.md R24, R27, R29, R30, R33),
states that differ only where nothing reads (R43), the end of a run (70_reset_and_hazards.md R242), and reference readings of
the algorithm written apart from the machine: input one byte at a time, the message schedule and the calls of a round as
tables, the hash tree by recursion on the number of chunks (42_tree.md R148). Nothing here is used by the machine. -/

namespace Sys2Proof.Machine

/-! ### The invariant -/

/-- The number of 1 bits among the low `k` bits of `n`. -/
def bitCount : Nat → Nat → Nat
  | 0, _ => 0
  | k + 1, n => n % 2 + bitCount k (n / 2)

/-- `popcount(x)` (00_scope.md R14) of a 64-bit counter. -/
def popcount (x : BitVec 64) : Nat := bitCount 64 x.toNat

/-- A session register group no rule leaves otherwise between commands. -/
structure Session.Legal (ses : Session) : Prop where
  /-- `SFLAGS` is one of the legal values, `DERIVE_KEY_CONTEXT` not among them (R24). -/
  flags : ses.sflags = 0 ∨ ses.sflags = flagKeyedHash ∨ ses.sflags = flagDeriveKeyMaterial
  /-- `STK_DEPTH = popcount(CS_CTR)` (R33). -/
  depth : ses.stkDepth.val = popcount ses.chunk.csCtr
  /-- The session's input is within `MAX_INPUT` (42_tree.md R141). -/
  bound : ses.totalAbsorbed ≤ Config.maxInput
  /-- A chunk after the first was started because a byte followed (42_tree.md R143). -/
  pending : ses.chunk.csCtr ≠ 0 → 1 ≤ ses.chunk.len
  /-- Whenever `CS_BCOMP > 0`, `CS_BLEN >= 1` (R30). -/
  lazyBlock : 0 < ses.chunk.csBcomp.val → 1 ≤ ses.chunk.csBlen.val
  /-- Bytes `CS_BUF[CS_BLEN..63]` are zero (R27). -/
  zeroTail : ∀ i : Fin 64, ses.chunk.csBlen.val ≤ i.val → ses.chunk.csBuf[i] = 0

/-- The invariant of the machine between commands. -/
structure State.Inv (s : State) : Prop where
  /-- The core has read only words it has received (20_memory.md R52). -/
  cpBound : s.cp ≤ s.stream.length
  /-- A session that exists is legal. -/
  session : s.engineValid = true → s.session.Legal
  /-- A non-zero `RESULT` has set `ERR_SEEN` (R34). -/
  sticky : s.result ≠ .ok → s.errSeen = true
  /-- Before the first session nothing has been emitted (70_reset_and_hazards.md R232). -/
  silent : s.engineValid = false → s.out = []

/-! ### What nothing reads -/

/-- Two sessions that agree on every register and on the valid stack entries (R31). -/
def Session.LiveEq (a b : Session) : Prop :=
  a.key = b.key ∧ a.sflags = b.sflags ∧ a.chunk = b.chunk ∧ a.stkDepth = b.stkDepth ∧
    ∀ d : Fin 54, d.val < a.stkDepth.val → a.stk[d] = b.stk[d]

/-- Two states that differ only in what no rule reads: the session registers while `ENGINE_VALID = 0` (R22, R43), and stack
entries at or above `STK_DEPTH` (R31). -/
def State.LiveEq (s t : State) : Prop :=
  s.engineValid = t.engineValid ∧ s.result = t.result ∧ s.errSeen = t.errSeen ∧ s.cp = t.cp ∧ s.out = t.out ∧
    s.stream = t.stream ∧ (s.engineValid = true → s.session.LiveEq t.session)

/-- Two outcomes of the same kind, with related next states or the same reason. -/
def OutcomesAgree (R : State → State → Prop) :
    Host.Outcome State Fault Refusal → Host.Outcome State Fault Refusal → Prop
  | .next s, .next t => R s t
  | .fault f, .fault g => f = g
  | .refused r, .refused q => r = q
  | _, _ => False

/-! ### The end of a run -/

/-- Every command received has been executed, or the core is held at an incomplete one (70_reset_and_hazards.md R242). -/
def State.AtRest (s : State) : Prop := decode s.fetch = .error .incomplete

/-! ### Input one byte at a time -/

/-- One byte into the chunk: a full buffer is compressed first (20_memory.md R58; 41_chunk.md R124). -/
def Chunk.absorbByte (sflags : Word) (c : Chunk) (b : Byte) : Chunk :=
  (c.makeRoom sflags).copyIn [b]

/-- One byte into the session: a full chunk is completed first (42_tree.md R143). -/
def Session.absorbByte (ses : Session) (b : Byte) : Except Fault Session :=
  match ses.makeRoom with
  | .error f => .error f
  | .ok ses' => .ok { ses' with chunk := ses'.chunk.absorbByte ses'.sflags b }

/-! ### The message schedule as a table -/

/-- The table of 40_compression.md R106: `S[r][i]`. -/
def scheduleTable : Vector (Vector (Fin 16) 16) 7 := #v[
  #v[0, 1, 2, 3, 4, 5, 6, 7, 8, 9, 10, 11, 12, 13, 14, 15],
  #v[2, 6, 3, 10, 7, 0, 4, 13, 1, 11, 12, 5, 9, 14, 15, 8],
  #v[3, 4, 10, 12, 13, 2, 7, 14, 6, 5, 9, 0, 11, 15, 8, 1],
  #v[10, 7, 12, 9, 14, 3, 13, 15, 4, 0, 11, 2, 5, 8, 1, 6],
  #v[12, 13, 9, 11, 15, 10, 14, 8, 7, 2, 5, 3, 0, 1, 6, 4],
  #v[9, 14, 11, 5, 8, 12, 15, 1, 13, 3, 0, 10, 2, 6, 4, 7],
  #v[11, 15, 5, 0, 1, 9, 8, 6, 14, 10, 2, 12, 3, 4, 7, 13]]

/-- The schedule of round `r`, read off the table. -/
def scheduleOf (m : Block) (r : Fin 7) : Block := Vector.ofFn fun i => m[scheduleTable[r][i]]

/-- The eight calls of G in a round, in order (40_compression.md R104): the four state indices, then the two positions in the
message schedule. The first four calls are the columns, the last four the diagonals. -/
def roundCalls : List (Fin 16 × Fin 16 × Fin 16 × Fin 16 × Fin 16 × Fin 16) := [
  (0, 4, 8, 12, 0, 1), (1, 5, 9, 13, 2, 3), (2, 6, 10, 14, 4, 5), (3, 7, 11, 15, 6, 7),
  (0, 5, 10, 15, 8, 9), (1, 6, 11, 12, 10, 11), (2, 7, 8, 13, 12, 13), (3, 4, 9, 14, 14, 15)]

/-- A round, read off the table of its calls. -/
def roundOf (v m : Block) : Block :=
  roundCalls.foldl (fun v call => g v call.1 call.2.1 call.2.2.1 call.2.2.2.1 m[call.2.2.2.2.1] m[call.2.2.2.2.2]) v

/-! ### The hash tree -/

/-- Bytes `1024 i` to `1024 i + 1023` of a message, fewer at its end. -/
def messageChunk (m : List Byte) (i : Nat) : List Byte := (m.drop (1024 * i)).take 1024

/-- The number of chunks of a message; the empty message has one, empty (43_output.md R163). -/
def chunkCount (m : List Byte) : Nat := max 1 ((m.length + 1023) / 1024)

/-- Chunk `i` of a message as an Output. -/
def leafOutput (key : CV) (sflags : Word) (m : List Byte) (i : Nat) : Output :=
  ((Chunk.start key (BitVec.ofNat 64 i)).update sflags (messageChunk m i)).output sflags

/-- The tree over `count` chunks of a message from chunk `first` on: one chunk is itself; otherwise the left subtree holds the
largest power of two of chunks below `count` (42_tree.md R148). `count` is a sufficient first argument, which bounds the depth. -/
def treeOutput (key : CV) (sflags : Word) (m : List Byte) : (bound first count : Nat) → Output
  | 0, first, _ => leafOutput key sflags m first
  | bound + 1, first, count =>
    if count ≤ 1 then leafOutput key sflags m first
    else
      let left := 2 ^ (count - 1).log2
      parentOutput key sflags (outputCv (treeOutput key sflags m bound first left))
        (outputCv (treeOutput key sflags m bound (first + left) (count - left)))

/-- The root of a message's tree. -/
def treeRoot (key : CV) (sflags : Word) (m : List Byte) : Output :=
  treeOutput key sflags m (chunkCount m) 0 (chunkCount m)

/-- The session registers are those of a session that has absorbed exactly `m` (10_state.md R26, R33): the current chunk holds the
bytes after the completed chunks, and for each set bit `b` of `CS_CTR` the stack holds, bottom to top from the most significant,
the chaining value of the complete subtree over the `2^b` chunks that bit covers. -/
structure Session.Represents (ses : Session) (m : List Byte) : Prop where
  /-- The message is within `MAX_INPUT`. -/
  bound : m.length ≤ Config.maxInput
  /-- The completed chunks are full, and a chunk is completed only when a byte follows it. -/
  complete : 1024 * ses.chunk.csCtr.toNat ≤ m.length
  /-- A chunk after the first holds at least one byte. -/
  pending : ses.chunk.csCtr ≠ 0 → 1024 * ses.chunk.csCtr.toNat < m.length
  /-- The current chunk holds at most 1024 bytes. -/
  room : m.length ≤ 1024 * ses.chunk.csCtr.toNat + 1024
  /-- The chunk registers. -/
  chunk : ses.chunk =
    (Chunk.start ses.key ses.chunk.csCtr).update ses.sflags (m.drop (1024 * ses.chunk.csCtr.toNat))
  /-- The stack depth. -/
  depth : ses.stkDepth.val = popcount ses.chunk.csCtr
  /-- The stack entries. -/
  entries : ∀ b : Nat, b < 64 → ses.chunk.csCtr.getLsbD b = true →
    ses.stk[popcount (ses.chunk.csCtr >>> (b + 1))]? =
      some (outputCv (treeOutput ses.key ses.sflags m (2 ^ b)
        ((ses.chunk.csCtr >>> (b + 1)) <<< (b + 1)).toNat (2 ^ b)))

end Sys2Proof.Machine
end

