-- ==== Sys2Proof/Certificates/Slice0/Obligations.lean ====
section
/-! DEFINITION. The statements about the model, for the provers. Each docstring names the rules of spec/ it rests on; where a rule
is marked by the spec as its own inference ("derived: from ..."), or a clause is the model's choice, the docstring says so. -/

open Sys2Proof Sys2Proof.Machine

/-! ### Encoding (30_encoding.md) -/

/-- R71, R73 to R76: the decoder gives back every well-formed command, with every operand at every value, and the words after it. -/
def Obligations.DecodeOfEncodeIsTheCommand : Prop :=
  ∀ (i : Instr) (rest : List Word), i.WellFormed → decode (encode i ++ rest) = .ok (i, rest)

/-- R71, R76: what the decoder reads is a well-formed command, its words are exactly the words read, and their number is
`n_words`. -/
def Obligations.DecodedCommandIsExactlyItsWords : Prop :=
  ∀ (ws : List Word) (i : Instr) (rest : List Word), decode ws = .ok (i, rest) →
    i.WellFormed ∧ ws = encode i ++ rest ∧ (encode i).length = i.nWords

/-- R75: a legal header is one of the six header words, compared whole (mask 0xFFFFFFFF). -/
def Obligations.LegalHeadersAreTheSixTableWords : Prop :=
  ∀ (h : Word) (op : Op), Op.ofHeader h = some op ↔
    (h &&& 0xFFFFFFFF, op) ∈ [((0x00000001 : Word), Op.initHash), (0x00000002, Op.initKeyedHash), (0x00000003, Op.initKdf),
      (0x00000004, Op.absorb), (0x00000005, Op.squeeze), (0x00000006, Op.reset)]

/-- R71, R73, R75 on words written out from the spec's encodings (95_test_vectors.md P1 and P2). -/
def Obligations.SpecWordsDecodeToTheirCommands : Prop :=
  decode [0x00000001] = .ok (.initHash, []) ∧
  decode [0x00000002, 0x00000020, 0x00000000, 0x74616877, 0x68742073, 0x6C452065, 0x68736976, 0x726F7720, 0x6F662064,
    0x72662072, 0x646E6569] = .ok (.initKeyedHash 32 [0x74616877, 0x68742073, 0x6C452065, 0x68736976, 0x726F7720,
    0x6F662064, 0x72662072, 0x646E6569], []) ∧
  decode [0x00000003, 0x00000001, 0x00000000, 0xFFFFFF41, 0x00000006] = .ok (.initKdf 1 [0xFFFFFF41], [0x00000006]) ∧
  decode [0x00000004, 0x00000003, 0x00000000, 0x00636261] = .ok (.absorb 3 [0x00636261], []) ∧
  decode [0x00000005, 0x00000020, 0x00000001] = .ok (.squeeze 0x0000000100000020, []) ∧
  decode [0x00000006] = .ok (.reset, []) ∧
  decode [0x00000010] = .error .illegalHeader ∧ decode [0x00000014] = .error .illegalHeader

/-- R74: the payload has `LEN` bytes, byte `k` being bits `[8*(k mod 4)+7 : 8*(k mod 4)]` of payload word `floor(k/4)`, the payload
words being the command's words from its fourth on; the pad bytes are ignored: two payloads with the same `LEN` bytes are
executed alike. -/
def Obligations.PayloadBytesAreLittleEndianAndPadIsIgnored : Prop :=
  (∀ (len : BitVec 64) (pw : List Word), pw.length = (len.toNat + 3) / 4 →
    (payloadBytes len pw).length = len.toNat ∧
    ∀ k : Nat, k < len.toNat →
      (payloadBytes len pw)[k]? = (pw[k / 4]?).map fun w => w.extractLsb' (8 * (k % 4)) 8) ∧
  (∀ (len : BitVec 64) (pw : List Word), (encode (.initKeyedHash len pw)).drop 3 = pw ∧
    (encode (.initKdf len pw)).drop 3 = pw ∧ (encode (.absorb len pw)).drop 3 = pw) ∧
  (∀ (len : BitVec 64) (pw pw' : List Word) (s : State), payloadBytes len pw = payloadBytes len pw' →
    exec (.initKeyedHash len pw) s = exec (.initKeyedHash len pw') s ∧
    exec (.initKdf len pw) s = exec (.initKdf len pw') s ∧
    exec (.absorb len pw) s = exec (.absorb len pw') s)

/-- R13, R74, R85: packing a byte sequence and reading it back as a payload gives it back, and the packed command is
well-formed. -/
def Obligations.PackedPayloadReadsBack : Prop :=
  ∀ bs : List Byte, bs.length < 2 ^ 64 →
    payloadBytes (lenOfBytes bs) (packBytes bs) = bs ∧ (absorbOf bs).WellFormed ∧ (initKdfOf bs).WellFormed ∧
      (initKeyedHashOf bs).WellFormed

/-- R13: `bytes_le` and `words_le` are inverse to each other. -/
def Obligations.BytesAndWordsAreInverse : Prop :=
  (∀ ws : List Word, wordsLe (bytesLe ws) = ws) ∧
  (∀ bs : List Byte, bs.length % 4 = 0 → bytesLe (wordsLe bs) = bs)

/-! ### The step, the command stream and the end of a command -/

/-- 20_memory.md R52, R60; 60_exceptions.md R202: a step executes the command that the words at `CP` decode to; in particular
the command whose encoding stands at `CP`. -/
def Obligations.StepExecutesTheCommandAtCp : Prop :=
  (∀ (s : State) (i : Instr) (rest : List Word), decode s.fetch = .ok (i, rest) → step s = exec i s) ∧
  (∀ (s : State) (i : Instr) (rest : List Word), i.WellFormed → s.fetch = encode i ++ rest → step s = exec i s)

/-- 30_encoding.md R77, 60_exceptions.md R205: a header with `RSVD != 0` or `OP` in {0, 7..15} completes with `ILLEGAL_COMMAND`, the
header word alone consumed and no session state changed, and the words after it are read next; no command of the table gives
that result. -/
def Obligations.IllegalHeaderCompletesWithIllegalCommand : Prop :=
  (∀ (s : State) (h : Word) (ws : List Word), s.fetch = h :: ws →
    (h.extractLsb' 4 28 ≠ 0 ∨ h.extractLsb' 0 4 = 0 ∨ 7 ≤ (h.extractLsb' 0 4).toNat) →
    ∃ t, step s = .next t ∧ t = { s with result := .illegalCommand, errSeen := true, cp := s.cp + 1 } ∧ t.fetch = ws) ∧
  (∀ (i : Instr) (s t : State), exec i s = .next t → t.result ≠ .illegalCommand)

/-- 60_exceptions.md R209: while words of the command at `CP` are missing nothing changes, and when they have arrived the command
is executed. That the held core is a step to the same state is the model's reading (log 3). -/
def Obligations.IncompleteCommandIsHeldUntilItsWordsArrive : Prop :=
  ∀ (s : State) (i : Instr) (have_ missing : List Word), i.WellFormed → encode i = have_ ++ missing → missing ≠ [] →
    s.cp ≤ s.stream.length → s.fetch = have_ →
    step s = .next s ∧ step (s.receive missing) = exec i (s.receive missing)

/-- 10_state.md R40, 30_encoding.md R76: a command that completes has advanced `CP` by its number of words, whatever its result,
and the stream is not written. -/
def Obligations.EveryCommandAdvancesCpByItsWords : Prop :=
  ∀ (i : Instr) (s t : State), exec i s = .next t → t.stream = s.stream ∧
    t.cp = s.cp + (match i with
      | .initHash => 1
      | .initKeyedHash len _ => 3 + (len.toNat + 3) / 4
      | .initKdf len _ => 3 + (len.toNat + 3) / 4
      | .absorb len _ => 3 + (len.toNat + 3) / 4
      | .squeeze _ => 3
      | .reset => 1)

/-- 60_exceptions.md R203: an error changes no session register, emits nothing, writes `RESULT` and `ERR_SEEN`, and advances `CP` by
the command's words; the words read next are those after the command. -/
def Obligations.ErrorChangesOnlyStatusAndCp : Prop :=
  (∀ (i : Instr) (s t : State), exec i s = .next t → t.result ≠ .ok →
    t = { s with result := t.result, errSeen := true, cp := s.cp + i.nWords } ∧ t.fetch = s.fetch.drop i.nWords) ∧
  (∀ s : State, decode s.fetch = .error .illegalHeader →
    ∃ t, step s = .next t ∧ t = { s with result := .illegalCommand, errSeen := true, cp := s.cp + 1 } ∧
      t.fetch = s.fetch.drop 1)

/-- 60_exceptions.md R201, R202, R204: the result of every command, from the checks in their order; and success leaves `ERR_SEEN`
as it was. -/
def Obligations.ResultIsTheFirstFailedCheck : Prop :=
  ∀ (i : Instr) (s t : State), exec i s = .next t →
    t.result = (match i with
      | .initHash => .ok
      | .initKeyedHash len _ => if len.toNat = 32 then .ok else .invalidKeyLength
      | .initKdf _ _ => .ok
      | .absorb len _ =>
        if s.engineValid = false then .noEngine
        else if 2 ^ 64 < 1024 * s.session.chunk.csCtr.toNat + (64 * s.session.chunk.csBcomp.val + s.session.chunk.csBlen.val)
            + len.toNat then .inputLimit
        else .ok
      | .squeeze _ => if s.engineValid = false then .noEngine else .ok
      | .reset => if s.engineValid = false then .noEngine else .ok) ∧
    (t.result = .ok → t.errSeen = s.errSeen)

/-- 10_state.md R34, 60_exceptions.md R201: the fields of `STATUS` as the host reads it; reserved bits read as 0; the five result
codes are 0 to 4, by name, and `RESULT` holds no other. -/
def Obligations.StatusWordFields : Prop :=
  (∀ s : State, s.status.extractLsb' 0 4 = s.result.code ∧
    s.status.getLsbD 4 = s.errSeen ∧ s.status.getLsbD 5 = s.engineValid ∧ s.status.extractLsb' 6 26 = 0) ∧
  ResultCode.ok.code = 0 ∧ ResultCode.invalidKeyLength.code = 1 ∧ ResultCode.illegalCommand.code = 2 ∧
  ResultCode.noEngine.code = 3 ∧ ResultCode.inputLimit.code = 4 ∧
  (∀ c : ResultCode, c.code.toNat ≤ 4 ∧ (c.code = 0 ↔ c = .ok))

/-- 10_state.md R34, 60_exceptions.md R214: `ERR_SEEN` stays 1 over every step, and a step sets it only by completing with a
non-zero result. -/
def Obligations.ErrSeenIsSticky : Prop :=
  ∀ s t : State, step s = .next t →
    (s.errSeen = true → t.errSeen = true) ∧ (t.errSeen = true → s.errSeen = true ∨ t.result ≠ .ok)

/-- 10_state.md R22, R23: over every command `ENGINE_VALID` becomes 1 exactly by a successful `INIT_*` and never becomes 0; the key
and the session flags change only by a successful `INIT_*`. -/
def Obligations.OnlyConstructionWritesEngineValidKeyAndFlags : Prop :=
  ∀ (i : Instr) (s t : State), exec i s = .next t →
    (t.engineValid = true ↔ s.engineValid = true ∨
      ((i.op = .initHash ∨ i.op = .initKeyedHash ∨ i.op = .initKdf) ∧ t.result = .ok)) ∧
    (i.op = .absorb ∨ i.op = .squeeze ∨ i.op = .reset ∨ t.result ≠ .ok →
      t.session.key = s.session.key ∧ t.session.sflags = s.session.sflags)

/-- 10_state.md R41, 20_memory.md R53: over every step `OUT` is only appended to, and only by a `SQUEEZE`. -/
def Obligations.OutOnlyGrowsAndOnlyBySqueeze : Prop :=
  ∀ s t : State, step s = .next t → ∃ ws : List Word, t.out = s.out ++ ws ∧
    (ws ≠ [] → ∃ (len : BitVec 64) (rest : List Word), decode s.fetch = .ok (.squeeze len, rest))

/-- 60_exceptions.md R206: `ABSORB`, `SQUEEZE` and `RESET` complete with `NO_ENGINE` while no session exists, and nothing else
gives that result. -/
def Obligations.NoEngineExactlyWithoutASession : Prop :=
  (∀ (i : Instr) (s : State), s.engineValid = false → i.op = .absorb ∨ i.op = .squeeze ∨ i.op = .reset →
    exec i s = .next { s with result := .noEngine, errSeen := true, cp := s.cp + i.nWords }) ∧
  (∀ (i : Instr) (s t : State), exec i s = .next t → t.result = .noEngine →
    s.engineValid = false ∧ (i.op = .absorb ∨ i.op = .squeeze ∨ i.op = .reset))

/-! ### Mode constructors and RESET (44_modes.md) -/

/-- R182 (R181, R101): `INIT_HASH`, the one word 0x00000001, completes in every state, with the whole next state: the IV as key,
flags 0, an empty chunk 0, an empty stack; `STATUS.ERR_SEEN`, `OUT` and the stream as before. -/
def Obligations.InitHashStartsAPlainSession : Prop :=
  encode .initHash = [0x00000001] ∧ ∀ s : State, ∃ t, exec .initHash s = .next t ∧
    t.session.key.toList = [0x6A09E667, 0xBB67AE85, 0x3C6EF372, 0xA54FF53A, 0x510E527F, 0x9B05688C, 0x1F83D9AB, 0x5BE0CD19] ∧
    t.session.sflags = 0x00000000 ∧ t.session.chunk.csCv = t.session.key ∧ t.session.chunk.csCtr = 0 ∧
    (∀ a : Fin 64, t.session.chunk.csBuf[a] = 0) ∧ t.session.chunk.csBlen.val = 0 ∧ t.session.chunk.csBcomp.val = 0 ∧
    t.session.stkDepth.val = 0 ∧
    t = { s with engineValid := true, session := t.session, result := .ok, cp := s.cp + 1 }

/-- R181, R183, 20_memory.md R54, R55: `INIT_KEYED_HASH` with `LEN = 32` completes in every state; the 8 payload words are the key
words themselves, the flags are KEYED_HASH, the chunk and the stack are fresh. -/
def Obligations.InitKeyedHashTakesTheEightPayloadWords : Prop :=
  ∀ (s : State) (pw : List Word), pw.length = 8 → ∃ t, exec (.initKeyedHash 32 pw) s = .next t ∧
    t.session.key.toList = pw ∧ t.session.sflags = 0x00000010 ∧
    t.session.chunk = Chunk.start t.session.key 0 ∧ t.session.stkDepth.val = 0 ∧
    t = { s with engineValid := true, session := t.session, result := .ok, cp := s.cp + 11 }

/-- R187, 60_exceptions.md R207: every other key length completes with `INVALID_KEY_LENGTH`, changes no session register, and
consumes the key bytes. -/
def Obligations.WrongKeyLengthLeavesThePreviousSession : Prop :=
  ∀ (s : State) (len : BitVec 64) (pw : List Word), len.toNat ≠ 32 →
    exec (.initKeyedHash len pw) s =
      .next { s with result := .invalidKeyLength, errSeen := true, cp := s.cp + (3 + (len.toNat + 3) / 4) }

/-- R184, with 42_tree.md R148 (the tree, which the spec marks as its own inference): `INIT_KDF` completes in every state for every
context; the key is the first 32 bytes of the root output of the context's tree, with the IV as key and DERIVE_KEY_CONTEXT as
flags, read as 8 little-endian words; the flags are DERIVE_KEY_MATERIAL, the chunk and the stack are fresh, and nothing is
emitted. -/
def Obligations.InitKdfDerivesTheKeyFromTheContextTree : Prop :=
  ∀ (s : State) (len : BitVec 64) (pw : List Word), pw.length = (len.toNat + 3) / 4 →
    ∃ t, exec (.initKdf len pw) s = .next t ∧
      t.session.key.toList =
        wordsLe (rootOutputBytes (treeRoot iv 0x00000020 (payloadBytes len pw)) 32) ∧
      t.session.sflags = 0x00000040 ∧ t.session.chunk = Chunk.start t.session.key 0 ∧ t.session.stkDepth.val = 0 ∧
      t = { s with engineValid := true, session := t.session, result := .ok, cp := s.cp + (3 + (len.toNat + 3) / 4) }

/-- R185: `RESET`, the one word 0x00000006, of a session keeps its key and flags and `STATUS.ERR_SEEN`, `OUT` and `ENGINE_VALID`,
and makes the chunk and the stack fresh; without a session it completes with `NO_ENGINE`. -/
def Obligations.ResetKeepsKeyAndFlags : Prop :=
  encode .reset = [0x00000006] ∧
  (∀ s : State, s.engineValid = true → ∃ t, exec .reset s = .next t ∧
    t.session.key = s.session.key ∧ t.session.sflags = s.session.sflags ∧
    t.session.chunk = Chunk.start s.session.key 0 ∧ t.session.stkDepth.val = 0 ∧
    t = { s with session := t.session, result := .ok, cp := s.cp + 1 }) ∧
  (∀ s : State, s.engineValid = false →
    exec .reset s = .next { s with result := .noEngine, errSeen := true, cp := s.cp + 1 })

/-- R185 (reset idempotence, 95_test_vectors.md V-S6): after a successful construction and any `ABSORB`, `SQUEEZE` and `RESET`
commands, `RESET` leaves the session of the construction, in everything that is read. -/
def Obligations.ResetUndoesEverySessionUse : Prop :=
  ∀ (i₀ : Instr) (is : List Instr) (s t₀ t : State), i₀.op = .initHash ∨ i₀.op = .initKeyedHash ∨ i₀.op = .initKdf →
    exec i₀ s = .next t₀ → t₀.result = .ok →
    (∀ i ∈ is, i.op = .absorb ∨ i.op = .squeeze ∨ i.op = .reset) → execAll is t₀ = .next t →
    ∃ u, exec .reset t = .next u ∧ u.result = .ok ∧ u.session.LiveEq t₀.session

/-- R186: a successful construction gives, in everything that is read, the same state whatever session, or none, was there
before. -/
def Obligations.ConstructionDiscardsThePreviousSession : Prop :=
  ∀ (i : Instr) (s t : State) (valid : Bool) (other : Session),
    i.op = .initHash ∨ i.op = .initKeyedHash ∨ i.op = .initKdf → exec i s = .next t → t.result = .ok →
    ∃ u, exec i { s with engineValid := valid, session := other } = .next u ∧ t.LiveEq u

/-! ### Compression primitive (40_compression.md) -/

/-- R103: the new values of `V[a]`, `V[b]`, `V[c]`, `V[d]` under G, for four distinct indices, with `rotr32` as the rotation of a
32-bit word; no other word changes. -/
def Obligations.QuarterRoundComputesItsFourWords : Prop :=
  ∀ (v : Block) (a b c d : Fin 16) (mx my : Word), [a, b, c, d].Nodup →
    ∃ a₁ d₁ c₁ b₁ : Word,
      a₁ = v[a] + v[b] + mx ∧ d₁ = (v[d] ^^^ a₁).rotateRight 16 ∧ c₁ = v[c] + d₁ ∧ b₁ = (v[b] ^^^ c₁).rotateRight 12 ∧
      (g v a b c d mx my)[a] = a₁ + b₁ + my ∧
      (g v a b c d mx my)[d] = (d₁ ^^^ (g v a b c d mx my)[a]).rotateRight 8 ∧
      (g v a b c d mx my)[c] = c₁ + (g v a b c d mx my)[d] ∧
      (g v a b c d mx my)[b] = (b₁ ^^^ (g v a b c d mx my)[c]).rotateRight 7 ∧
      ∀ j : Fin 16, j ≠ a → j ≠ b → j ≠ c → j ≠ d → (g v a b c d mx my)[j] = v[j]

/-- R104: calls of G on disjoint state words may be made in either order, so the order within the columns and within the diagonals
does not change a round. -/
def Obligations.QuarterRoundsOnDisjointWordsCommute : Prop :=
  ∀ (v : Block) (a b c d a' b' c' d' : Fin 16) (mx my mx' my' : Word),
    [a, b, c, d].Disjoint [a', b', c', d'] →
    g (g v a b c d mx my) a' b' c' d' mx' my' = g (g v a' b' c' d' mx' my') a b c d mx my

/-- R104, R106 (a table the spec derives from R102 and R105): a round is the eight calls of G of `roundCalls`, four columns and then
four diagonals, with their state indices and message words; the seven rounds of a compression use the block words the schedule
table gives. -/
def Obligations.RoundsFollowTheScheduleTable : Prop :=
  (∀ v m : Block, mixRound v m = roundOf v m) ∧
  ∀ v m : Block, mixRounds 7 v m = (List.finRange 7).foldl (fun v r => roundOf v (scheduleOf m r)) v

/-- R107, 30_encoding.md R81, R84: the compression starts from the chaining value, `IV[0..3]`, the counter's two halves, the block
length and the flags, runs the seven rounds of the schedule table (R106), each the eight calls of G of R104, and gives
`V[i] ^ V[i+8]` and `V[i+8] ^ cv[i]`. R108, 43_output.md R161: a chaining value is the first 8 words of a compression, that of an
Output being the compression of its own five fields. -/
def Obligations.CompressRunsSevenRoundsAndFeedsForward : Prop :=
  (∀ (cv : CV) (block : Block) (blen : Fin 65) (ctr : BitVec 64) (flags : Word), ∃ v₀ v : Block,
    v₀.toList = cv.toList ++ [0x6A09E667, 0xBB67AE85, 0x3C6EF372, 0xA54FF53A] ++
      [ctr.extractLsb' 0 32, ctr.extractLsb' 32 32, BitVec.ofNat 32 blen.val, flags] ∧
    v = (List.finRange 7).foldl (fun v r => roundOf v (scheduleOf block r)) v₀ ∧
    ∀ (i : Nat) (h : i < 8), (compress cv block blen ctr flags)[i] = v[i] ^^^ v[i + 8] ∧
      (compress cv block blen ctr flags)[i + 8] = v[i + 8] ^^^ cv[i]) ∧
  (∀ out : Block, (cvOf out).toList = out.toList.take 8) ∧
  (∀ o : Output, (outputCv o).toList = (compress o.cv o.block o.blen o.ctr o.flags).toList.take 8)

/-- R105: the schedule step rearranges the words and changes no value. -/
def Obligations.PermuteRearrangesTheWords : Prop :=
  ∀ m : Block, (permute m).toList.Perm m.toList

/-! ### Chunk accumulator (41_chunk.md) -/

/-- R124: appending two byte sequences one after the other is appending their concatenation. -/
def Obligations.ChunkUpdatesConcatenate : Prop :=
  ∀ (sflags : Word) (c : Chunk) (d₁ d₂ : List Byte), (c.update sflags d₁).update sflags d₂ = c.update sflags (d₁ ++ d₂)

/-- R123, R124, R126: within the capacity the chunk grows by exactly the bytes given, its counter stays, and after at least one byte
the buffer is not empty: the last block stays pending. -/
def Obligations.ChunkUpdateGrowsByItsBytes : Prop :=
  ∀ (sflags : Word) (c : Chunk) (d : List Byte), c.len + d.length ≤ 1024 →
    (c.update sflags d).len = c.len + d.length ∧ (c.update sflags d).csCtr = c.csCtr ∧
      (d ≠ [] → 1 ≤ (c.update sflags d).csBlen.val)

/-- R124, R126; 10_state.md R44: bytes that fit the buffer are stored at address `CS_BLEN` and nothing is compressed, even when the
buffer becomes exactly full; every other byte of the buffer stays. -/
def Obligations.BytesThatFitTheBufferAreOnlyStored : Prop :=
  ∀ (sflags : Word) (c : Chunk) (d : List Byte), c.csBlen.val + d.length ≤ 64 →
    ∃ c', c.update sflags d = c' ∧ c'.csCv = c.csCv ∧ c'.csCtr = c.csCtr ∧ c'.csBcomp = c.csBcomp ∧
      c'.csBlen.val = c.csBlen.val + d.length ∧
      ∀ a : Fin 64, c'.csBuf[a] =
        if c.csBlen.val ≤ a.val ∧ a.val < c.csBlen.val + d.length then d.getD (a.val - c.csBlen.val) 0 else c.csBuf[a]

/-- R124, R125: with the buffer full, one more byte compresses the block into the running chaining value (no CHUNK_END, PARENT or
ROOT) and is stored at address 0 of a cleared buffer. -/
def Obligations.ByteAfterAFullBufferCompressesIt : Prop :=
  ∀ (sflags : Word) (c : Chunk) (b : Byte), c.csBlen.val = 64 → c.csBcomp.val < 15 →
    ∃ c', c.update sflags [b] = c' ∧
      c'.csCv = cvOf (compress c.csCv (blockWords c.csBuf) 64 c.csCtr
        (sflags ||| (if c.csBcomp.val = 0 then 0x01 else 0))) ∧
      c'.csCtr = c.csCtr ∧ c'.csBcomp.val = c.csBcomp.val + 1 ∧ c'.csBlen.val = 1 ∧
      ∀ a : Fin 64, c'.csBuf[a] = if a.val = 0 then b else 0

/-! ### Tree engine and ABSORB (42_tree.md) -/

/-- R142, 20_memory.md R58: the input loop is the machine taking one byte at a time. -/
def Obligations.InputDataIsByteAtATime : Prop :=
  ∀ (ses : Session) (d : List Byte), ses.inputData d = d.foldlM Session.absorbByte ses

/-- R141: `ABSORB` of a legal session within `MAX_INPUT` completes; it adds exactly `LEN` bytes, keeps the key and the flags, and
writes nothing but the session registers, `RESULT` and `CP`. -/
def Obligations.AbsorbCompletesAndAddsItsBytes : Prop :=
  ∀ (s : State) (len : BitVec 64) (pw : List Word), pw.length = (len.toNat + 3) / 4 → s.engineValid = true →
    s.session.Legal → s.session.totalAbsorbed + len.toNat ≤ 2 ^ 64 →
    ∃ t, exec (.absorb len pw) s = .next t ∧
      s.session.inputData (payloadBytes len pw) = .ok t.session ∧
      t.session.totalAbsorbed = s.session.totalAbsorbed + len.toNat ∧
      t.session.key = s.session.key ∧ t.session.sflags = s.session.sflags ∧
      t = { s with session := t.session, result := .ok, cp := s.cp + (3 + (len.toNat + 3) / 4) }

/-- 60_exceptions.md R208: an `ABSORB` that would pass 2^64 bytes completes with `INPUT_LIMIT` and absorbs nothing; nothing else
gives that result. -/
def Obligations.InputLimitExactlyPastTheMaximum : Prop :=
  (∀ (s : State) (len : BitVec 64) (pw : List Word), s.engineValid = true →
    1024 * s.session.chunk.csCtr.toNat + s.session.chunk.len + len.toNat > 2 ^ 64 →
    exec (.absorb len pw) s =
      .next { s with result := .inputLimit, errSeen := true, cp := s.cp + (3 + (len.toNat + 3) / 4) }) ∧
  (∀ (i : Instr) (s t : State), exec i s = .next t → t.result = .inputLimit → s.engineValid = true ∧
    ∃ len pw, i = .absorb len pw ∧ 1024 * s.session.chunk.csCtr.toNat + s.session.chunk.len + len.toNat > 2 ^ 64)

/-- R141, 70_reset_and_hazards.md R240 (both marked derived by the spec): two `ABSORB` commands leave the session that one `ABSORB`
of the concatenation of their payload bytes leaves, whatever the pad bytes; a message may be split anywhere. -/
def Obligations.AbsorbsConcatenate : Prop :=
  ∀ (s : State) (len₁ len₂ len : BitVec 64) (pw₁ pw₂ pw : List Word),
    (Instr.absorb len₁ pw₁).WellFormed → (Instr.absorb len₂ pw₂).WellFormed → (Instr.absorb len pw).WellFormed →
    payloadBytes len pw = payloadBytes len₁ pw₁ ++ payloadBytes len₂ pw₂ →
    s.engineValid = true → s.session.Legal → s.session.totalAbsorbed + len.toNat ≤ 2 ^ 64 →
    ∃ t₁ t₂ t, exec (.absorb len₁ pw₁) s = .next t₁ ∧ exec (.absorb len₂ pw₂) t₁ = .next t₂ ∧
      exec (.absorb len pw) s = .next t ∧
      t₁.result = .ok ∧ t₂.result = .ok ∧ t.result = .ok ∧ t₂.session = t.session

/-- R144, R147, 10_state.md R33: merging a completed chunk never faults within the input bound, takes the stack depth from
`popcount(total - 1)` to `popcount(total)`, and leaves the other registers and the entries below the new top. -/
def Obligations.MergingKeepsTheStackDepth : Prop :=
  ∀ (ses : Session) (cv : CV) (total : BitVec 64), 1 ≤ total.toNat → total.toNat < 2 ^ 54 →
    ses.stkDepth.val = popcount (total - 1) →
    ∃ ses', ses.addChunkCv cv total = .ok ses' ∧ ses'.stkDepth.val = popcount total ∧
      ses'.key = ses.key ∧ ses'.sflags = ses.sflags ∧ ses'.chunk = ses.chunk ∧
      ∀ d : Fin 54, d.val + 1 < ses'.stkDepth.val → ses'.stk[d] = ses.stk[d]

/-- 10_state.md R33 (the correspondence of entries to set bits), R26, R25: absorbing `d` takes a session that holds the message `m`
to one that holds `m ++ d`, with every stack entry the chaining value of its complete subtree. -/
def Obligations.AbsorbingKeepsTheTreeOnTheStack : Prop :=
  ∀ (ses : Session) (m d : List Byte), ses.Represents m → m.length + d.length ≤ 2 ^ 64 →
    ∃ ses', ses.inputData d = .ok ses' ∧ ses'.Represents (m ++ d) ∧ ses'.key = ses.key ∧ ses'.sflags = ses.sflags

/-- R181, 41_chunk.md R121: a chunk just started has the key as chaining value, the counter given and an empty, cleared buffer; a
session just constructed, whatever was there before, is chunk 0 so started and an empty stack, and holds the empty message. -/
def Obligations.FreshSessionHoldsTheEmptyMessage : Prop :=
  (∀ (k : CV) (ctr : BitVec 64), (Chunk.start k ctr).csCv = k ∧ (Chunk.start k ctr).csCtr = ctr ∧
    (∀ a : Fin 64, (Chunk.start k ctr).csBuf[a] = 0) ∧ (Chunk.start k ctr).csBlen.val = 0 ∧
    (Chunk.start k ctr).csBcomp.val = 0) ∧
  ∀ (ses : Session) (k : CV) (f : Word), (ses.init k f).Represents [] ∧ (ses.init k f).key = k ∧ (ses.init k f).sflags = f ∧
    (ses.init k f).chunk = Chunk.start k 0 ∧ (ses.init k f).stkDepth.val = 0

/-- R148 (marked derived by the spec), 43_output.md R163: the root that a squeeze folds from the chunk and the stack is the root of
the tree in which every left subtree is the largest complete one. -/
def Obligations.RootOutputIsTheRootOfTheTree : Prop :=
  ∀ (ses : Session) (m : List Byte), ses.Represents m → ses.rootOutput = treeRoot ses.key ses.sflags m

/-! ### Output finalizer and SQUEEZE (43_output.md) -/

/-- R162, R164, R165, R166: `SQUEEZE LEN` of a session completes, appends exactly `ceil(LEN/4)` words and writes nothing else but
`RESULT` and `CP`; output byte `j` is byte `j mod 64` of the root compression with output block counter `floor(j/64)` and the
`ROOT` flag, and the pad bytes of the last word are zero. -/
def Obligations.SqueezeEmitsTheRootOutputBytes : Prop :=
  ∀ (s : State) (len : BitVec 64), s.engineValid = true → ∃ ws : List Word,
    exec (.squeeze len) s = .next { s with out := s.out ++ ws, result := .ok, cp := s.cp + 3 } ∧
    ws.length = (len.toNat + 3) / 4 ∧
    ∀ j : Nat, j < 4 * ws.length → (ws.getD (j / 4) 0).extractLsb' (8 * (j % 4)) 8 =
      if j < len.toNat then
        let o := s.session.rootOutput
        ((compress o.cv o.block o.blen (BitVec.ofNat 64 (j / 64)) (o.flags ||| 0x08)).toList.getD (j % 64 / 4) 0).extractLsb'
          (8 * (j % 4)) 8
      else 0

/-- R167 (marked derived by the spec): the bytes of `SQUEEZE n` are the first `n` bytes of `SQUEEZE m`, for `n <= m`. -/
def Obligations.ShorterSqueezeIsAPrefix : Prop :=
  ∀ (s : State) (n m : BitVec 64), s.engineValid = true → n.toNat ≤ m.toNat →
    ∃ t u, exec (.squeeze n) s = .next t ∧ exec (.squeeze m) s = .next u ∧
      (bytesLe (t.out.drop s.out.length)).take n.toNat = (bytesLe (u.out.drop s.out.length)).take n.toNat

/-- 41_chunk.md R127, 42_tree.md R145, R163, 30_encoding.md R82, R83, R80 (marked derived by the spec). The current chunk as an Output
has the chunk's own chaining value, counter and length, and the buffer as little-endian block words. A parent, over any two
children, has the session key, the left child's words and then the right child's, counter 0, length 64 and `PARENT`. The root
Output is the fold of the current chunk with the valid stack entries, newest first, each the left child of a parent whose right
child is the chaining value of the rest. No Output so built carries `ROOT` before the squeeze path adds it, and bits 7 to 31 of its
flags stay 0. -/
def Obligations.RootOutputShapeAndFlags : Prop :=
  ∀ ses : Session,
    (ses.chunkOutput = ses.chunk.output ses.sflags ∧ ses.chunkOutput.cv = ses.chunk.csCv ∧
      ses.chunkOutput.ctr = ses.chunk.csCtr ∧ ses.chunkOutput.blen = ses.chunk.csBlen ∧
      ses.chunkOutput.flags = ses.sflags ||| (if ses.chunk.csBcomp.val = 0 then 0x03 else 0x02) ∧
      ∀ (i : Nat) (h : i < 16), ses.chunkOutput.block[i] =
        ses.chunk.csBuf[4 * i + 3] ++ ses.chunk.csBuf[4 * i + 2] ++ ses.chunk.csBuf[4 * i + 1] ++ ses.chunk.csBuf[4 * i]) ∧
    (∀ l r : CV, (parentOutput ses.key ses.sflags l r).cv = ses.key ∧
      (parentOutput ses.key ses.sflags l r).block.toList = l.toList ++ r.toList ∧
      (parentOutput ses.key ses.sflags l r).ctr = 0 ∧ (parentOutput ses.key ses.sflags l r).blen.val = 64 ∧
      (parentOutput ses.key ses.sflags l r).flags = ses.sflags ||| 0x04) ∧
    ses.rootOutput = (ses.stk.toList.take ses.stkDepth.val).foldr
      (fun entry o => parentOutput ses.key ses.sflags entry (outputCv o)) ses.chunkOutput ∧
    (ses.sflags = 0 ∨ ses.sflags = 0x10 ∨ ses.sflags = 0x20 ∨ ses.sflags = 0x40 →
      ∀ o : Output, (o = ses.chunkOutput ∨ o = ses.rootOutput ∨ ∃ l r, o = parentOutput ses.key ses.sflags l r) →
        o.flags &&& 0x08 = 0 ∧ o.flags >>> 7 = 0)

/-- 70_reset_and_hazards.md R235: an `ABSORB` after a `SQUEEZE` continues the same message: it does to the session what it would have
done without the `SQUEEZE`. -/
def Obligations.AbsorbAfterSqueezeContinues : Prop :=
  ∀ (s t : State) (n len : BitVec 64) (pw : List Word), exec (.squeeze n) s = .next t →
    OutcomesAgree (fun a b => a.session = b.session ∧ a.engineValid = b.engineValid ∧ a.result = b.result)
      (exec (.absorb len pw) t) (exec (.absorb len pw) s)

/-! ### Pseudo-commands (44_modes.md) -/

/-- R188, 30_encoding.md R86, with 42_tree.md R148 (which the spec marks as its own inference): `HASH n, data`, from every state,
appends the 32-byte digest of the data's tree as 8 words and leaves a plain-hash session, with the IV as key and flags 0, that
holds the data. -/
def Obligations.HashPseudoCommandGivesTheTreeDigest : Prop :=
  ∀ (s : State) (data : List Byte), data.length < 2 ^ 64 → ∃ t, execAll (Pseudo.hash data).expand s = .next t ∧
    t.out = s.out ++ wordsLe (rootOutputBytes (treeRoot iv 0 data) 32) ∧ t.result = .ok ∧ t.errSeen = s.errSeen ∧
    t.engineValid = true ∧ t.session.Represents data ∧ t.session.sflags = 0 ∧
    t.session.key.toList = [0x6A09E667, 0xBB67AE85, 0x3C6EF372, 0xA54FF53A, 0x510E527F, 0x9B05688C, 0x1F83D9AB, 0x5BE0CD19]

/-- R189, R190, with 42_tree.md R148 (which the spec marks as its own inference): `KEYED_HASH` with a 32-byte key, and `DERIVE_KEY`
with any context and output length, from every state, the session left behind holding the data. `KEYED_HASH` with a key of another
length: the construction fails with `INVALID_KEY_LENGTH`, and the `ABSORB` and `SQUEEZE` act on the state before it, so that
without a session nothing is appended and the result is `NO_ENGINE`. -/
def Obligations.KeyedHashAndDeriveKeyGiveTheTreeOutput : Prop :=
  (∀ (s : State) (key data : List Byte), key.length = 32 → data.length < 2 ^ 64 →
    ∃ t, execAll (Pseudo.keyedHash key data).expand s = .next t ∧
      t.out = s.out ++ wordsLe (rootOutputBytes (treeRoot (cvOfWords (wordsLe key)) 0x10 data) 32) ∧
      t.result = .ok ∧ t.engineValid = true ∧ t.session.Represents data ∧ t.session.sflags = 0x10 ∧
      t.session.key.toList = wordsLe key) ∧
  (∀ (s : State) (key data : List Byte), key.length ≠ 32 → key.length < 2 ^ 64 →
    execAll (Pseudo.keyedHash key data).expand s = execAll [absorbOf data, .squeeze 32]
      { s with result := .invalidKeyLength, errSeen := true, cp := s.cp + (3 + (key.length + 3) / 4) }) ∧
  (∀ (s : State) (key data : List Byte), key.length ≠ 32 → key.length < 2 ^ 64 → s.engineValid = false →
    ∃ t, execAll (Pseudo.keyedHash key data).expand s = .next t ∧ t.result = .noEngine ∧
      t = { s with result := t.result, errSeen := true, cp := t.cp }) ∧
  (∀ (s : State) (context material : List Byte) (m : BitVec 64), context.length < 2 ^ 64 → material.length < 2 ^ 64 →
    ∃ t, execAll (Pseudo.deriveKey context material m).expand s = .next t ∧
      t.out = s.out ++ packBytes (rootOutputBytes (treeRoot
        (cvOfWords (wordsLe (rootOutputBytes (treeRoot iv 0x20 context) 32))) 0x40 material) m.toNat) ∧
      t.result = .ok ∧ t.engineValid = true ∧ t.session.Represents material ∧ t.session.sflags = 0x40)

/-! ### The whole machine -/

/-- 10_state.md R35: the numbered elements of the chunk, key and stack, and the numbers that name nothing. -/
def Obligations.StateElementNumbers : Prop :=
  ∀ s : State,
    s.element 0x000 = some s.status ∧ s.element 0x001 = some s.session.sflags ∧
    s.element 0x002 = some (if s.engineValid then 1 else 0) ∧
    s.element 0x003 = some (BitVec.ofNat 32 s.session.chunk.csBlen.val) ∧
    s.element 0x004 = some (BitVec.ofNat 32 s.session.chunk.csBcomp.val) ∧
    s.element 0x005 = some (BitVec.ofNat 32 s.session.stkDepth.val) ∧
    s.element 0x006 = some (s.session.chunk.csCtr.extractLsb' 0 32) ∧
    s.element 0x007 = some (s.session.chunk.csCtr.extractLsb' 32 32) ∧
    (∀ i : Fin 8, s.element (0x008 + i.val) = some s.session.key[i] ∧
      s.element (0x010 + i.val) = some s.session.chunk.csCv[i] ∧ s.element (0x018 + i.val) = none) ∧
    (∀ i : Fin 16, s.element (0x020 + i.val) = some (blockWords s.session.chunk.csBuf)[i]) ∧
    (∀ (d : Fin 54) (i : Fin 8), s.element (0x100 + 8 * d.val + i.val) = some s.session.stk[d][i]) ∧
    (∀ n : Nat, (0x030 ≤ n ∧ n < 0x100) ∨ 0x100 + 8 * 54 ≤ n → s.element n = none)

/-- 10_state.md R43, 70_reset_and_hazards.md R231: what hardware reset leaves, whatever the session registers then hold (`junk`):
no session, `STATUS` 0, `CP` 0, `OUT` empty, a held command abandoned; and the model's reset state is one such state (its session
contents are the model's choice, log 1). That the core then waits as a step to the same state is the model's reading twice over:
reset empties the stream (log 12), and a held core is a step to the same state (log 3). -/
def Obligations.HardwareResetValues : Prop :=
  (∀ (s : State) (junk : Session), (s.hardReset junk).engineValid = false ∧ (s.hardReset junk).status = 0 ∧
    (s.hardReset junk).cp = 0 ∧ (s.hardReset junk).out = [] ∧ (s.hardReset junk).session = junk ∧
    step (s.hardReset junk) = .next (s.hardReset junk)) ∧
  ∀ s : State, State.reset = s.hardReset State.reset.session

/-- The invariant of the machine holds after hardware reset, whatever the session registers then hold (10_state.md R33, R43). -/
def Obligations.InvariantHoldsAtReset : Prop :=
  State.reset.Inv ∧ ∀ (s : State) (junk : Session), (s.hardReset junk).Inv

/-- 10_state.md R24, R27, R30, R33, R34: every step and every delivery of words keeps the invariant. -/
def Obligations.EveryStepKeepsTheInvariant : Prop :=
  (∀ s t : State, s.Inv → step s = .next t → t.Inv) ∧ (∀ (s : State) (ws : List Word), s.Inv → (s.receive ws).Inv)

/-- 60_exceptions.md R210, 42_tree.md R147: from a state of the invariant every step answers a next state; the internal faults are
out of reach. That a core held at an incomplete command answers a next state, its own, is the model's reading (log 3). -/
def Obligations.NoStepFaultsUnderTheInvariant : Prop :=
  ∀ s : State, s.Inv → ∃ t, step s = .next t

/-- 10_state.md R22, R31, R43: a step reads no session register while no session exists, and no stack entry at or above the depth. -/
def Obligations.StepDoesNotReadDeadRegisters : Prop :=
  ∀ s t : State, s.LiveEq t → OutcomesAgree State.LiveEq (step s) (step t)

/-- 10_state.md R43: what the session registers hold after hardware reset is never observable: the same words give the same `OUT`,
`STATUS` and `CP` after any number of steps. -/
def Obligations.ResetContentsAreUnobservable : Prop :=
  ∀ (s : State) (junk₁ junk₂ : Session) (ws : List Word) (k : Nat),
    OutcomesAgree (fun t u => t.observation = u.observation)
      (Host.Core.run core k ((s.hardReset junk₁).receive ws)) (Host.Core.run core k ((s.hardReset junk₂).receive ws))

/-- 70_reset_and_hazards.md R242: a run from a state of the invariant ends, at most one step per word still to be read, at the end of
the stream or at an incomplete command, and stays there. That it stays there by steps to the same state, and so that `k` may be
larger than the number of commands, is the model's reading (log 3). -/
def Obligations.RunEndsWithinTheWordsLeft : Prop :=
  ∀ (s : State) (k : Nat), s.Inv → s.stream.length - s.cp ≤ k →
    ∃ t, Host.Core.run core k s = .next t ∧ t.AtRest ∧ step t = .next t
end

