-- ==== Sys2Proof/Laws/State.lean ====
section
/-! SUPPORT. One lemma per field per update of the state, the session and the chunk, so that no later proof unfolds an update. -/

namespace Sys2Proof.Machine

/-! ### State -/

@[simp] theorem State.raise_engineValid (s : State) (c : ResultCode) (n : Nat) : (s.raise c n).engineValid = s.engineValid := rfl
@[simp] theorem State.raise_session (s : State) (c : ResultCode) (n : Nat) : (s.raise c n).session = s.session := rfl
@[simp] theorem State.raise_result (s : State) (c : ResultCode) (n : Nat) : (s.raise c n).result = c := rfl
@[simp] theorem State.raise_errSeen (s : State) (c : ResultCode) (n : Nat) : (s.raise c n).errSeen = true := rfl
@[simp] theorem State.raise_cp (s : State) (c : ResultCode) (n : Nat) : (s.raise c n).cp = s.cp + n := rfl
@[simp] theorem State.raise_out (s : State) (c : ResultCode) (n : Nat) : (s.raise c n).out = s.out := rfl
@[simp] theorem State.raise_stream (s : State) (c : ResultCode) (n : Nat) : (s.raise c n).stream = s.stream := rfl

@[simp] theorem State.finishOk_engineValid (s : State) (n : Nat) : (s.finishOk n).engineValid = s.engineValid := rfl
@[simp] theorem State.finishOk_session (s : State) (n : Nat) : (s.finishOk n).session = s.session := rfl
@[simp] theorem State.finishOk_result (s : State) (n : Nat) : (s.finishOk n).result = .ok := rfl
@[simp] theorem State.finishOk_errSeen (s : State) (n : Nat) : (s.finishOk n).errSeen = s.errSeen := rfl
@[simp] theorem State.finishOk_cp (s : State) (n : Nat) : (s.finishOk n).cp = s.cp + n := rfl
@[simp] theorem State.finishOk_out (s : State) (n : Nat) : (s.finishOk n).out = s.out := rfl
@[simp] theorem State.finishOk_stream (s : State) (n : Nat) : (s.finishOk n).stream = s.stream := rfl

@[simp] theorem State.startSession_engineValid (s : State) (ses : Session) : (s.startSession ses).engineValid = true := rfl
@[simp] theorem State.startSession_session (s : State) (ses : Session) : (s.startSession ses).session = ses := rfl
@[simp] theorem State.startSession_result (s : State) (ses : Session) : (s.startSession ses).result = s.result := rfl
@[simp] theorem State.startSession_errSeen (s : State) (ses : Session) : (s.startSession ses).errSeen = s.errSeen := rfl
@[simp] theorem State.startSession_cp (s : State) (ses : Session) : (s.startSession ses).cp = s.cp := rfl
@[simp] theorem State.startSession_out (s : State) (ses : Session) : (s.startSession ses).out = s.out := rfl
@[simp] theorem State.startSession_stream (s : State) (ses : Session) : (s.startSession ses).stream = s.stream := rfl

@[simp] theorem State.withSession_engineValid (s : State) (ses : Session) : (s.withSession ses).engineValid = s.engineValid := rfl
@[simp] theorem State.withSession_session (s : State) (ses : Session) : (s.withSession ses).session = ses := rfl
@[simp] theorem State.withSession_result (s : State) (ses : Session) : (s.withSession ses).result = s.result := rfl
@[simp] theorem State.withSession_errSeen (s : State) (ses : Session) : (s.withSession ses).errSeen = s.errSeen := rfl
@[simp] theorem State.withSession_cp (s : State) (ses : Session) : (s.withSession ses).cp = s.cp := rfl
@[simp] theorem State.withSession_out (s : State) (ses : Session) : (s.withSession ses).out = s.out := rfl
@[simp] theorem State.withSession_stream (s : State) (ses : Session) : (s.withSession ses).stream = s.stream := rfl

@[simp] theorem State.emit_engineValid (s : State) (ws : List Word) : (s.emit ws).engineValid = s.engineValid := rfl
@[simp] theorem State.emit_session (s : State) (ws : List Word) : (s.emit ws).session = s.session := rfl
@[simp] theorem State.emit_result (s : State) (ws : List Word) : (s.emit ws).result = s.result := rfl
@[simp] theorem State.emit_errSeen (s : State) (ws : List Word) : (s.emit ws).errSeen = s.errSeen := rfl
@[simp] theorem State.emit_cp (s : State) (ws : List Word) : (s.emit ws).cp = s.cp := rfl
@[simp] theorem State.emit_out (s : State) (ws : List Word) : (s.emit ws).out = s.out ++ ws := rfl
@[simp] theorem State.emit_stream (s : State) (ws : List Word) : (s.emit ws).stream = s.stream := rfl

@[simp] theorem State.illegalCommand_engineValid (s : State) : (s.illegalCommand).engineValid = s.engineValid := rfl
@[simp] theorem State.illegalCommand_session (s : State) : (s.illegalCommand).session = s.session := rfl
@[simp] theorem State.illegalCommand_result (s : State) : (s.illegalCommand).result = .illegalCommand := rfl
@[simp] theorem State.illegalCommand_errSeen (s : State) : (s.illegalCommand).errSeen = true := rfl
@[simp] theorem State.illegalCommand_cp (s : State) : (s.illegalCommand).cp = s.cp + 1 := rfl
@[simp] theorem State.illegalCommand_out (s : State) : (s.illegalCommand).out = s.out := rfl
@[simp] theorem State.illegalCommand_stream (s : State) : (s.illegalCommand).stream = s.stream := rfl

@[simp] theorem State.receive_engineValid (s : State) (ws : List Word) : (s.receive ws).engineValid = s.engineValid := rfl
@[simp] theorem State.receive_session (s : State) (ws : List Word) : (s.receive ws).session = s.session := rfl
@[simp] theorem State.receive_result (s : State) (ws : List Word) : (s.receive ws).result = s.result := rfl
@[simp] theorem State.receive_errSeen (s : State) (ws : List Word) : (s.receive ws).errSeen = s.errSeen := rfl
@[simp] theorem State.receive_cp (s : State) (ws : List Word) : (s.receive ws).cp = s.cp := rfl
@[simp] theorem State.receive_out (s : State) (ws : List Word) : (s.receive ws).out = s.out := rfl
@[simp] theorem State.receive_stream (s : State) (ws : List Word) : (s.receive ws).stream = s.stream ++ ws := rfl

@[simp] theorem State.hardReset_engineValid (s : State) (junk : Session) : (s.hardReset junk).engineValid = false := rfl
@[simp] theorem State.hardReset_session (s : State) (junk : Session) : (s.hardReset junk).session = junk := rfl
@[simp] theorem State.hardReset_result (s : State) (junk : Session) : (s.hardReset junk).result = .ok := rfl
@[simp] theorem State.hardReset_errSeen (s : State) (junk : Session) : (s.hardReset junk).errSeen = false := rfl
@[simp] theorem State.hardReset_cp (s : State) (junk : Session) : (s.hardReset junk).cp = 0 := rfl
@[simp] theorem State.hardReset_out (s : State) (junk : Session) : (s.hardReset junk).out = [] := rfl
@[simp] theorem State.hardReset_stream (s : State) (junk : Session) : (s.hardReset junk).stream = [] := rfl

@[simp] theorem State.hold_eq (s : State) : s.hold = s := rfl

/-! ### Session -/

@[simp] theorem Session.chunkStart_key (ses : Session) (ctr : BitVec 64) : (ses.chunkStart ctr).key = ses.key := rfl
@[simp] theorem Session.chunkStart_sflags (ses : Session) (ctr : BitVec 64) : (ses.chunkStart ctr).sflags = ses.sflags := rfl
@[simp] theorem Session.chunkStart_chunk (ses : Session) (ctr : BitVec 64) : (ses.chunkStart ctr).chunk = Chunk.start ses.key ctr := rfl
@[simp] theorem Session.chunkStart_stk (ses : Session) (ctr : BitVec 64) : (ses.chunkStart ctr).stk = ses.stk := rfl
@[simp] theorem Session.chunkStart_stkDepth (ses : Session) (ctr : BitVec 64) : (ses.chunkStart ctr).stkDepth = ses.stkDepth := rfl

@[simp] theorem Session.init_key (ses : Session) (k : CV) (f : Word) : (ses.init k f).key = k := rfl
@[simp] theorem Session.init_sflags (ses : Session) (k : CV) (f : Word) : (ses.init k f).sflags = f := rfl
@[simp] theorem Session.init_chunk (ses : Session) (k : CV) (f : Word) : (ses.init k f).chunk = Chunk.start k 0 := rfl
@[simp] theorem Session.init_stk (ses : Session) (k : CV) (f : Word) : (ses.init k f).stk = ses.stk := rfl
@[simp] theorem Session.init_stkDepth (ses : Session) (k : CV) (f : Word) : (ses.init k f).stkDepth = 0 := rfl

@[simp] theorem Session.chunkUpdate_key (ses : Session) (d : List Byte) : (ses.chunkUpdate d).key = ses.key := rfl
@[simp] theorem Session.chunkUpdate_sflags (ses : Session) (d : List Byte) : (ses.chunkUpdate d).sflags = ses.sflags := rfl
@[simp] theorem Session.chunkUpdate_chunk (ses : Session) (d : List Byte) : (ses.chunkUpdate d).chunk = ses.chunk.update ses.sflags d := rfl
@[simp] theorem Session.chunkUpdate_stk (ses : Session) (d : List Byte) : (ses.chunkUpdate d).stk = ses.stk := rfl
@[simp] theorem Session.chunkUpdate_stkDepth (ses : Session) (d : List Byte) : (ses.chunkUpdate d).stkDepth = ses.stkDepth := rfl

/-! ### Chunk -/

@[simp] theorem Chunk.start_csCv (key : CV) (ctr : BitVec 64) : (Chunk.start key ctr).csCv = key := rfl
@[simp] theorem Chunk.start_csCtr (key : CV) (ctr : BitVec 64) : (Chunk.start key ctr).csCtr = ctr := rfl
@[simp] theorem Chunk.start_csBuf (key : CV) (ctr : BitVec 64) : (Chunk.start key ctr).csBuf = Vector.replicate 64 0 := rfl
@[simp] theorem Chunk.start_csBlen (key : CV) (ctr : BitVec 64) : (Chunk.start key ctr).csBlen = 0 := rfl
@[simp] theorem Chunk.start_csBcomp (key : CV) (ctr : BitVec 64) : (Chunk.start key ctr).csBcomp = 0 := rfl

@[simp] theorem Chunk.compressBlock_csCv (sflags : Word) (c : Chunk) :
    (c.compressBlock sflags).csCv = cvOf (compress c.csCv (blockWords c.csBuf) 64 c.csCtr (sflags ||| c.startFlag)) := rfl
@[simp] theorem Chunk.compressBlock_csCtr (sflags : Word) (c : Chunk) :
    (c.compressBlock sflags).csCtr = c.csCtr := rfl
@[simp] theorem Chunk.compressBlock_csBuf (sflags : Word) (c : Chunk) :
    (c.compressBlock sflags).csBuf = Vector.replicate 64 0 := rfl
@[simp] theorem Chunk.compressBlock_csBlen (sflags : Word) (c : Chunk) :
    (c.compressBlock sflags).csBlen = 0 := rfl
@[simp] theorem Chunk.compressBlock_csBcomp (sflags : Word) (c : Chunk) :
    (c.compressBlock sflags).csBcomp = c.csBcomp + 1 := rfl

@[simp] theorem Chunk.copyIn_csCv (c : Chunk) (d : List Byte) :
    (c.copyIn d).csCv = c.csCv := by simp only [Chunk.copyIn]
@[simp] theorem Chunk.copyIn_csCtr (c : Chunk) (d : List Byte) :
    (c.copyIn d).csCtr = c.csCtr := by simp only [Chunk.copyIn]
@[simp] theorem Chunk.copyIn_csBuf (c : Chunk) (d : List Byte) :
    (c.copyIn d).csBuf = memWrite c.csBuf c.csBlen.val (d.take (c.room d.length)) := by simp only [Chunk.copyIn]
@[simp] theorem Chunk.copyIn_csBcomp (c : Chunk) (d : List Byte) :
    (c.copyIn d).csBcomp = c.csBcomp := by simp only [Chunk.copyIn]
@[simp] theorem Chunk.copyIn_csBlen_val (c : Chunk) (d : List Byte) :
    (c.copyIn d).csBlen.val = c.csBlen.val + c.room d.length := rfl

end Sys2Proof.Machine
end

