-- ==== Sys2Proof/Laws/Ops.lean ====
section
/-! SUPPORT. One lemma per shared operation that says what it does, for proofs to cite instead of unfolding it: bytes and words,
the block buffer, the chunk, the stack, the loops without their bounds, the meanings case by case. -/

namespace Sys2Proof.Machine

/-! ### Bytes and words -/

@[simp] theorem bytesLe_nil : bytesLe [] = [] := rfl

@[simp] theorem bytesLe_cons (w : Word) (ws : List Word) : bytesLe (w :: ws) = wordBytes w ++ bytesLe ws := rfl

@[simp] theorem bytesLe_append (ws ws' : List Word) : bytesLe (ws ++ ws') = bytesLe ws ++ bytesLe ws' :=
  List.flatMap_append

@[simp] theorem wordBytes_length (w : Word) : (wordBytes w).length = 4 := rfl

@[simp] theorem bytesLe_length (ws : List Word) : (bytesLe ws).length = 4 * ws.length := by
  induction ws with
  | nil => rfl
  | cons w ws ih => simp [ih]; omega

@[simp] theorem zeros_length (n : Nat) : (zeros n).length = n := by simp [zeros]

/-- `LE32` of the four bytes of a word is the word. -/
theorem le32_wordBytes (w : Word) :
    le32 (w.extractLsb' 0 8) (w.extractLsb' 8 8) (w.extractLsb' 16 8) (w.extractLsb' 24 8) = w := by
  apply BitVec.eq_of_getLsbD_eq
  intro i hi
  simp only [le32, BitVec.getLsbD_or, BitVec.getLsbD_shiftLeft, BitVec.getLsbD_setWidth, BitVec.getLsbD_extractLsb']
  rcases Nat.lt_or_ge i 8 with h | h
  · simp [h, hi, show i < 16 by omega, show i < 24 by omega]
  rcases Nat.lt_or_ge i 16 with h' | h'
  · simp [h', hi, show i < 24 by omega, show ¬ i < 8 by omega, show i - 8 < 8 by omega, show 8 + (i - 8) = i by omega,
      show i - 8 < 32 by omega]
  rcases Nat.lt_or_ge i 24 with h'' | h''
  · simp [h'', hi, show ¬ i < 16 by omega, show ¬ i < 8 by omega, show ¬ i - 8 < 8 by omega, show i - 16 < 8 by omega,
      show 16 + (i - 16) = i by omega, show i - 16 < 32 by omega]
  · simp [hi, show ¬ i < 24 by omega, show ¬ i < 16 by omega, show ¬ i < 8 by omega, show ¬ i - 8 < 8 by omega,
      show ¬ i - 16 < 8 by omega, show i - 24 < 8 by omega, show 24 + (i - 24) = i by omega, show i - 24 < 32 by omega]

/-- Byte `k` of `LE32(b0, b1, b2, b3)` is `bk`. -/
theorem wordBytes_le32 (b0 b1 b2 b3 : Byte) : wordBytes (le32 b0 b1 b2 b3) = [b0, b1, b2, b3] := by
  have key : ∀ (k : Nat) (b : Byte), (k = 0 ∧ b = b0 ∨ k = 1 ∧ b = b1 ∨ k = 2 ∧ b = b2 ∨ k = 3 ∧ b = b3) →
      (le32 b0 b1 b2 b3).extractLsb' (8 * k) 8 = b := by
    intro k b hk
    apply BitVec.eq_of_getLsbD_eq
    intro i hi
    simp only [le32, BitVec.getLsbD_or, BitVec.getLsbD_shiftLeft, BitVec.getLsbD_setWidth, BitVec.getLsbD_extractLsb']
    rcases hk with ⟨rfl, rfl⟩ | ⟨rfl, rfl⟩ | ⟨rfl, rfl⟩ | ⟨rfl, rfl⟩
    · simp [hi, show i < 32 by omega, show i < 16 by omega, show i < 24 by omega]
    · simp [hi, show 8 + i < 32 by omega, show ¬ 8 + i < 8 by omega, show 8 + i < 16 by omega, show 8 + i < 24 by omega,
        show i < 32 by omega]
    · simp [hi, show 16 + i < 32 by omega, show ¬ 16 + i < 8 by omega, show ¬ 16 + i < 16 by omega,
        show 16 + i < 24 by omega, show i < 32 by omega, BitVec.getLsbD_of_ge b0 (16 + i) (by omega),
        BitVec.getLsbD_of_ge b1 (16 + i - 8) (by omega)]
    · simp [hi, show 24 + i < 32 by omega, show ¬ 24 + i < 8 by omega, show ¬ 24 + i < 16 by omega,
        show ¬ 24 + i < 24 by omega, show i < 32 by omega, BitVec.getLsbD_of_ge b0 (24 + i) (by omega),
        BitVec.getLsbD_of_ge b1 (24 + i - 8) (by omega), BitVec.getLsbD_of_ge b2 (24 + i - 16) (by omega)]
  have h0 := key 0 b0 (by simp)
  have h1 := key 1 b1 (by simp)
  have h2 := key 2 b2 (by simp)
  have h3 := key 3 b3 (by simp)
  simp only [wordBytes]
  simp only [Nat.mul_zero, Nat.mul_one, Nat.reduceMul] at h0 h1 h2 h3
  rw [h0, h1, h2, h3]

/-! ### The block buffer -/

theorem memWrite_getElem (buf : BlockBuffer) (addr : Nat) (v : List Byte) (i : Nat) (h : i < 64) :
    (memWrite buf addr v)[i] =
      if addr ≤ i ∧ i < addr + v.length then v.getD (i - addr) 0 else buf[i] := by
  simp [memWrite]

@[simp] theorem memWrite_nil (buf : BlockBuffer) (addr : Nat) : memWrite buf addr [] = buf := by
  apply Vector.ext
  intro i h
  rw [memWrite_getElem, if_neg (by simp)]

/-- Two writes one after the other at adjacent addresses are one write of the concatenation. -/
theorem memWrite_append (buf : BlockBuffer) (addr : Nat) (v w : List Byte) :
    memWrite (memWrite buf addr v) (addr + v.length) w = memWrite buf addr (v ++ w) := by
  apply Vector.ext
  intro i h
  simp only [memWrite_getElem, List.length_append]
  rcases Nat.lt_or_ge i addr with h1 | h1
  · simp [show ¬ addr ≤ i by omega, show ¬ addr + v.length ≤ i by omega]
  rcases Nat.lt_or_ge i (addr + v.length) with h2 | h2
  · rw [if_neg (by omega), if_pos (by omega), if_pos (by omega), List.getD_append _ _ _ _ (by omega)]
  · rw [if_neg (c := addr ≤ i ∧ i < addr + v.length) (by omega)]
    by_cases h3 : i < addr + v.length + w.length
    · rw [if_pos (by omega), if_pos (by omega), List.getD_append_right _ _ _ _ (by omega)]
      congr 1; omega
    · rw [if_neg (by omega), if_neg (by omega)]

/-- Word `i` of the block is `LE32` of bytes `4i` to `4i+3` (20_memory.md R57). -/
theorem blockWords_getElem (buf : BlockBuffer) (i : Nat) (h : i < 16) :
    (blockWords buf)[i] = le32 buf[4 * i] buf[4 * i + 1] buf[4 * i + 2] buf[4 * i + 3] := by
  simp [blockWords]

/-! ### The stack -/

/-- A push below the capacity (42_tree.md R147). -/
theorem Session.push_ok (ses : Session) (cv : CV) (h : ses.stkDepth.val < 54) :
    ses.push cv = .ok { ses with stk := ses.stk.set ses.stkDepth.val cv h, stkDepth := ⟨ses.stkDepth.val + 1, by omega⟩ } := by
  simp [Session.push, show ses.stkDepth.val ≠ 54 by omega]

/-- A pop of a stack that is not empty (42_tree.md R147). -/
theorem Session.pop_ok (ses : Session) (h : 0 < ses.stkDepth.val) :
    ses.pop = .ok (ses.stk[ses.stkDepth.val - 1]'(by omega), { ses with stkDepth := ⟨ses.stkDepth.val - 1, by omega⟩ }) := by
  simp [Session.pop, show ses.stkDepth.val ≠ 0 by omega]

/-- A pop of an empty stack. -/
theorem Session.pop_empty (ses : Session) (h : ses.stkDepth.val = 0) : ses.pop = .error .stackUnderflow := by
  simp [Session.pop, h]

/-- What a push leaves, when it does not fault. -/
theorem Session.push_cases {ses ses' : Session} {cv : CV} (h : ses.push cv = .ok ses') :
    ∃ hd : ses.stkDepth.val < 54, ses' =
      { ses with stk := ses.stk.set ses.stkDepth.val cv hd, stkDepth := ⟨ses.stkDepth.val + 1, by omega⟩ } := by
  by_cases hd : ses.stkDepth.val = 54
  · simp [Session.push, hd] at h
  · have hlt : ses.stkDepth.val < 54 := by omega
    rw [Session.push_ok ses cv hlt] at h
    exact ⟨hlt, by injection h with h; exact h.symm⟩

/-! ### The loops without their bounds (log 11) -/

/-- After making room the buffer is not full. -/
theorem Chunk.makeRoom_csBlen (sflags : Word) (c : Chunk) : (c.makeRoom sflags).csBlen.val < 64 := by
  unfold Chunk.makeRoom
  split
  · simp
  · have := c.csBlen.isLt; omega

/-- A buffer that is not full is left alone. -/
theorem Chunk.makeRoom_of_lt (sflags : Word) (c : Chunk) (h : c.csBlen.val < 64) : c.makeRoom sflags = c := by
  simp [Chunk.makeRoom, show c.csBlen.val ≠ 64 by omega]

/-- A full buffer is compressed. -/
theorem Chunk.makeRoom_full (sflags : Word) (c : Chunk) (h : c.csBlen.val = 64) :
    c.makeRoom sflags = c.compressBlock sflags := by
  simp [Chunk.makeRoom, h]

/-- There is room for at least one byte once room is made. -/
theorem Chunk.room_pos (sflags : Word) (c : Chunk) (n : Nat) : 1 ≤ (c.makeRoom sflags).room (n + 1) := by
  have := c.makeRoom_csBlen sflags
  unfold Chunk.room; omega

/-- Any number of passes at least the number of bytes gives the same chunk (41_chunk.md R124). -/
theorem Chunk.updateLoop_enough (sflags : Word) : ∀ (k k' : Nat) (c : Chunk) (d : List Byte), d.length ≤ k → d.length ≤ k' →
    Chunk.updateLoop sflags k c d = Chunk.updateLoop sflags k' c d
  | 0, 0, _, _, _, _ => rfl
  | 0, _ + 1, _, [], _, _ => rfl
  | _ + 1, 0, _, [], _, _ => rfl
  | _ + 1, _ + 1, _, [], _, _ => rfl
  | k + 1, k' + 1, c, b :: bs, h, h' => by
    have := Chunk.room_pos sflags c bs.length
    simp only [List.length_cons] at h h'
    simp only [Chunk.updateLoop, List.length_cons]
    apply Chunk.updateLoop_enough
    · simp only [List.length_drop, List.length_cons]; omega
    · simp only [List.length_drop, List.length_cons]; omega

@[simp] theorem Chunk.update_nil (sflags : Word) (c : Chunk) : c.update sflags [] = c := rfl

/-- One pass of `chunk_update` (41_chunk.md R124): make room, copy what fits, go on with the rest. -/
theorem Chunk.update_pass (sflags : Word) (c : Chunk) (d : List Byte) (hd : d ≠ []) :
    c.update sflags d =
      ((c.makeRoom sflags).copyIn d).update sflags (d.drop ((c.makeRoom sflags).room d.length)) := by
  match d, hd with
  | b :: bs, _ =>
    have := Chunk.room_pos sflags c bs.length
    unfold Chunk.update
    conv_lhs => simp only [List.length_cons, Chunk.updateLoop]
    apply Chunk.updateLoop_enough
    · simp only [List.length_drop, List.length_cons]; omega
    · simp

/-- Bytes that fit are one copy (41_chunk.md R124). -/
theorem Chunk.update_fits (sflags : Word) (c : Chunk) (d : List Byte) (hd : d ≠ [])
    (h : (c.makeRoom sflags).csBlen.val + d.length ≤ 64) :
    c.update sflags d = (c.makeRoom sflags).copyIn d := by
  rw [Chunk.update_pass sflags c d hd]
  have : (c.makeRoom sflags).room d.length = d.length := by unfold Chunk.room; omega
  simp [this]

end Sys2Proof.Machine
end

