-- ==== Sys2Proof/Laws/Meanings.lean ====
section
/-! SUPPORT. What the input loop, each meaning and a step can do, said once: the loop of `input_data` without its bound, one
equation per meaning and case, the cases of a step. -/

namespace Sys2Proof.Machine

/-! ### The input loop -/

/-- A chunk never holds more than 1024 bytes (10_state.md R30). -/
theorem Chunk.len_le (c : Chunk) : c.len ≤ 1024 := by
  have := c.csBlen.isLt
  have := c.csBcomp.isLt
  unfold Chunk.len; omega

@[simp] theorem Chunk.start_len (key : CV) (ctr : BitVec 64) : (Chunk.start key ctr).len = 0 := rfl

/-- A chunk that is not full is left alone. -/
theorem Session.makeRoom_of_lt (ses : Session) (h : ses.chunk.len < 1024) : ses.makeRoom = .ok ses := by
  simp [Session.makeRoom, show ses.chunk.len ≠ 1024 by omega]

/-- What making room does when it does not fault: nothing to a chunk that is not full, the completion of a full one. -/
theorem Session.makeRoom_cases {ses ses' : Session} (h : ses.makeRoom = .ok ses') :
    (ses.chunk.len < 1024 ∧ ses' = ses) ∨
    (ses.chunk.len = 1024 ∧ ∃ m, ses.addChunkCv (outputCv ses.chunkOutput) (ses.chunk.csCtr + 1) = .ok m ∧
      ses' = m.chunkStart (ses.chunk.csCtr + 1)) := by
  have hle := ses.chunk.len_le
  unfold Session.makeRoom at h
  split at h
  · rename_i hfull
    unfold Session.completeChunk at h
    split at h
    · cases h
    · rename_i m hm
      injection h with h
      exact .inr ⟨hfull, m, hm, h.symm⟩
  · injection h with h
    exact .inl ⟨by omega, h.symm⟩

/-- After making room the chunk is not full. -/
theorem Session.makeRoom_len {ses ses' : Session} (h : ses.makeRoom = .ok ses') : ses'.chunk.len < 1024 := by
  rcases Session.makeRoom_cases h with ⟨hlt, rfl⟩ | ⟨-, m, -, rfl⟩
  · exact hlt
  · simp

/-- Any number of passes at least the number of bytes gives the same outcome (42_tree.md R142). -/
theorem Session.inputLoop_enough : ∀ (k k' : Nat) (ses : Session) (d : List Byte), d.length ≤ k → d.length ≤ k' →
    Session.inputLoop k ses d = Session.inputLoop k' ses d
  | 0, 0, _, _, _, _ => rfl
  | 0, _ + 1, _, [], _, _ => rfl
  | _ + 1, 0, _, [], _, _ => rfl
  | _ + 1, _ + 1, _, [], _, _ => rfl
  | k + 1, k' + 1, ses, b :: bs, h, h' => by
    simp only [List.length_cons] at h h'
    simp only [Session.inputLoop, List.length_cons]
    split
    · rfl
    · rename_i ses' hroom
      have hlen := Session.makeRoom_len hroom
      apply Session.inputLoop_enough
      · simp only [List.length_drop, List.length_cons]; omega
      · simp only [List.length_drop, List.length_cons]; omega

@[simp] theorem Session.inputData_nil (ses : Session) : ses.inputData [] = .ok ses := rfl

/-- One pass of `input_data` that faults (42_tree.md R142). -/
theorem Session.inputData_error (ses : Session) (d : List Byte) (hd : d ≠ []) (f : Fault) (h : ses.makeRoom = .error f) :
    ses.inputData d = .error f := by
  match d, hd with
  | b :: bs, _ => simp only [Session.inputData, List.length_cons, Session.inputLoop, h]

/-- One pass of `input_data` (42_tree.md R142): make room, give the chunk what it takes, go on with the rest. -/
theorem Session.inputData_pass (ses ses' : Session) (d : List Byte) (hd : d ≠ []) (h : ses.makeRoom = .ok ses') :
    ses.inputData d =
      (ses'.chunkUpdate (d.take (min (1024 - ses'.chunk.len) d.length))).inputData
        (d.drop (min (1024 - ses'.chunk.len) d.length)) := by
  match d, hd with
  | b :: bs, _ =>
    have hlen := Session.makeRoom_len h
    unfold Session.inputData
    conv_lhs => simp only [List.length_cons, Session.inputLoop, h]
    simp only [List.length_cons]
    apply Session.inputLoop_enough
    · simp only [List.length_drop, List.length_cons]; omega
    · simp

/-! ### The numbers of words -/

@[simp] theorem nWords_initHash (len : BitVec 64) : nWords Op.initHash.header len = 1 := rfl
@[simp] theorem nWords_initKeyedHash (len : BitVec 64) :
    nWords Op.initKeyedHash.header len = 3 + (len.toNat + 3) / 4 := rfl
@[simp] theorem nWords_initKdf (len : BitVec 64) : nWords Op.initKdf.header len = 3 + (len.toNat + 3) / 4 := rfl
@[simp] theorem nWords_absorb (len : BitVec 64) : nWords Op.absorb.header len = 3 + (len.toNat + 3) / 4 := rfl
@[simp] theorem nWords_squeeze (len : BitVec 64) : nWords Op.squeeze.header len = 3 := rfl
@[simp] theorem nWords_reset (len : BitVec 64) : nWords Op.reset.header len = 1 := rfl

@[simp] theorem Instr.nWords_initHash : Instr.initHash.nWords = 1 := by
  simp [Instr.nWords, Instr.op, Instr.len]
@[simp] theorem Instr.nWords_initKeyedHash (len : BitVec 64) (pw : List Word) :
    (Instr.initKeyedHash len pw).nWords = 3 + (len.toNat + 3) / 4 := by
  simp [Instr.nWords, Instr.op, Instr.len]
@[simp] theorem Instr.nWords_initKdf (len : BitVec 64) (pw : List Word) :
    (Instr.initKdf len pw).nWords = 3 + (len.toNat + 3) / 4 := by
  simp [Instr.nWords, Instr.op, Instr.len]
@[simp] theorem Instr.nWords_absorb (len : BitVec 64) (pw : List Word) :
    (Instr.absorb len pw).nWords = 3 + (len.toNat + 3) / 4 := by
  simp [Instr.nWords, Instr.op, Instr.len]
@[simp] theorem Instr.nWords_squeeze (len : BitVec 64) : (Instr.squeeze len).nWords = 3 := by
  simp [Instr.nWords, Instr.op, Instr.len]
@[simp] theorem Instr.nWords_reset : Instr.reset.nWords = 1 := by
  simp [Instr.nWords, Instr.op, Instr.len]

/-! ### The opcodes -/

@[simp] theorem Instr.op_initHash : Instr.initHash.op = .initHash := rfl
@[simp] theorem Instr.op_initKeyedHash (len : BitVec 64) (pw : List Word) : (Instr.initKeyedHash len pw).op = .initKeyedHash := rfl
@[simp] theorem Instr.op_initKdf (len : BitVec 64) (pw : List Word) : (Instr.initKdf len pw).op = .initKdf := rfl
@[simp] theorem Instr.op_absorb (len : BitVec 64) (pw : List Word) : (Instr.absorb len pw).op = .absorb := rfl
@[simp] theorem Instr.op_squeeze (len : BitVec 64) : (Instr.squeeze len).op = .squeeze := rfl
@[simp] theorem Instr.op_reset : Instr.reset.op = .reset := rfl

/-! ### The meanings, case by case -/

/-- `INIT_HASH` (44_modes.md R182). -/
theorem execInitHash_eq (s : State) :
    execInitHash s = .next ((s.startSession (s.session.init iv 0)).finishOk 1) := rfl

/-- `INIT_KEYED_HASH` with a key of another length (44_modes.md R183). -/
theorem execInitKeyedHash_error (len : BitVec 64) (pw : List Word) (s : State) (h : len.toNat ≠ 32) :
    execInitKeyedHash len pw s = .next (s.raise .invalidKeyLength (3 + (len.toNat + 3) / 4)) := by
  simp [execInitKeyedHash, Config.keyLen, h]

/-- `INIT_KEYED_HASH` with a 32-byte key (44_modes.md R183). -/
theorem execInitKeyedHash_ok (len : BitVec 64) (pw : List Word) (s : State) (h : len.toNat = 32) :
    execInitKeyedHash len pw s =
      .next ((s.startSession (s.session.init (cvOfWords (wordsLe (payloadBytes len pw))) flagKeyedHash)).finishOk 11) := by
  simp [execInitKeyedHash, Config.keyLen, h]

/-- `INIT_KDF` whose context session does not fault (44_modes.md R184). -/
theorem execInitKdf_ok (len : BitVec 64) (pw : List Word) (s : State) (context : Session)
    (h : (s.session.init iv flagDeriveKeyContext).inputData (payloadBytes len pw) = .ok context) :
    execInitKdf len pw s =
      .next ((s.startSession (context.init context.derivedKey flagDeriveKeyMaterial)).finishOk (3 + (len.toNat + 3) / 4)) := by
  simp [execInitKdf, h]

/-- `INIT_KDF` whose context session faults. -/
theorem execInitKdf_fault (len : BitVec 64) (pw : List Word) (s : State) (f : Fault)
    (h : (s.session.init iv flagDeriveKeyContext).inputData (payloadBytes len pw) = .error f) :
    execInitKdf len pw s = .fault f := by
  simp [execInitKdf, h]

/-- `ABSORB` without a session (60_exceptions.md R206). -/
theorem execAbsorb_noEngine (len : BitVec 64) (pw : List Word) (s : State) (h : s.engineValid = false) :
    execAbsorb len pw s = .next (s.raise .noEngine (3 + (len.toNat + 3) / 4)) := by
  simp [execAbsorb, h]

/-- `ABSORB` past the maximum (60_exceptions.md R208). -/
theorem execAbsorb_inputLimit (len : BitVec 64) (pw : List Word) (s : State) (h : s.engineValid = true)
    (hl : 2 ^ 64 < s.session.totalAbsorbed + len.toNat) :
    execAbsorb len pw s = .next (s.raise .inputLimit (3 + (len.toNat + 3) / 4)) := by
  simp only [Nat.reducePow] at hl
  simp [execAbsorb, h, Config.maxInput, hl]

/-- `ABSORB` past its checks (42_tree.md R141). -/
theorem execAbsorb_ok (len : BitVec 64) (pw : List Word) (s : State) (ses : Session) (h : s.engineValid = true)
    (hl : s.session.totalAbsorbed + len.toNat ≤ 2 ^ 64) (hi : s.session.inputData (payloadBytes len pw) = .ok ses) :
    execAbsorb len pw s = .next ((s.withSession ses).finishOk (3 + (len.toNat + 3) / 4)) := by
  simp only [Nat.reducePow] at hl
  simp [execAbsorb, h, Config.maxInput, Nat.not_lt.mpr hl, hi]

/-- `ABSORB` past its checks whose input loop faults. -/
theorem execAbsorb_fault (len : BitVec 64) (pw : List Word) (s : State) (f : Fault) (h : s.engineValid = true)
    (hl : s.session.totalAbsorbed + len.toNat ≤ 2 ^ 64) (hi : s.session.inputData (payloadBytes len pw) = .error f) :
    execAbsorb len pw s = .fault f := by
  simp only [Nat.reducePow] at hl
  simp [execAbsorb, h, Config.maxInput, Nat.not_lt.mpr hl, hi]

/-- `SQUEEZE` without a session (60_exceptions.md R206). -/
theorem execSqueeze_noEngine (len : BitVec 64) (s : State) (h : s.engineValid = false) :
    execSqueeze len s = .next (s.raise .noEngine 3) := by
  simp [execSqueeze, h]

/-- `SQUEEZE` of a session (43_output.md R164). -/
theorem execSqueeze_ok (len : BitVec 64) (s : State) (h : s.engineValid = true) :
    execSqueeze len s = .next ((s.emit (packBytes (rootOutputBytes s.session.rootOutput len.toNat))).finishOk 3) := by
  simp [execSqueeze, h]

/-- `RESET` without a session (60_exceptions.md R206). -/
theorem execReset_noEngine (s : State) (h : s.engineValid = false) : execReset s = .next (s.raise .noEngine 1) := by
  simp [execReset, h]

/-- `RESET` of a session (44_modes.md R185). -/
theorem execReset_ok (s : State) (h : s.engineValid = true) :
    execReset s = .next ((s.withSession (s.session.init s.session.key s.session.sflags)).finishOk 1) := by
  simp [execReset, h]

/-- Everything a command that answers a next state can have done: an error with its result, a construction, a session written by
`ABSORB` or `RESET`, or words emitted. -/
theorem exec_cases {i : Instr} {s t : State} (h : exec i s = .next t) :
    (∃ c, c ≠ .ok ∧ t = s.raise c i.nWords ∧
      ((c = .invalidKeyLength ∧ ∃ len pw, i = .initKeyedHash len pw ∧ len.toNat ≠ 32) ∨
       (c = .noEngine ∧ s.engineValid = false ∧ (i.op = .absorb ∨ i.op = .squeeze ∨ i.op = .reset)) ∨
       (c = .inputLimit ∧ s.engineValid = true ∧
          ∃ len pw, i = .absorb len pw ∧ 2 ^ 64 < s.session.totalAbsorbed + len.toNat))) ∨
    (i = .initHash ∧ t = (s.startSession (s.session.init iv 0)).finishOk i.nWords) ∨
    (∃ len pw, i = .initKeyedHash len pw ∧ len.toNat = 32 ∧
      t = (s.startSession (s.session.init (cvOfWords (wordsLe (payloadBytes len pw))) flagKeyedHash)).finishOk i.nWords) ∨
    (∃ len pw context, i = .initKdf len pw ∧
      (s.session.init iv flagDeriveKeyContext).inputData (payloadBytes len pw) = .ok context ∧
      t = (s.startSession (context.init context.derivedKey flagDeriveKeyMaterial)).finishOk i.nWords) ∨
    (∃ len pw ses, i = .absorb len pw ∧ s.engineValid = true ∧ s.session.totalAbsorbed + len.toNat ≤ 2 ^ 64 ∧
      s.session.inputData (payloadBytes len pw) = .ok ses ∧ t = (s.withSession ses).finishOk i.nWords) ∨
    (∃ len, i = .squeeze len ∧ s.engineValid = true ∧
      t = (s.emit (packBytes (rootOutputBytes s.session.rootOutput len.toNat))).finishOk i.nWords) ∨
    (i = .reset ∧ s.engineValid = true ∧
      t = (s.withSession (s.session.init s.session.key s.session.sflags)).finishOk i.nWords) := by
  cases i with
  | initHash =>
    injection h with h
    exact .inr (.inl ⟨rfl, by simp [← h]⟩)
  | initKeyedHash len pw =>
    change execInitKeyedHash len pw s = .next t at h
    by_cases hl : len.toNat = 32
    · rw [execInitKeyedHash_ok len pw s hl] at h
      injection h with h
      refine .inr (.inr (.inl ⟨len, pw, rfl, hl, ?_⟩))
      simp [← h, hl]
    · rw [execInitKeyedHash_error len pw s hl] at h
      injection h with h
      exact .inl ⟨_, by decide, by simp [← h], .inl ⟨rfl, len, pw, rfl, hl⟩⟩
  | initKdf len pw =>
    change execInitKdf len pw s = .next t at h
    rcases hi : (s.session.init iv flagDeriveKeyContext).inputData (payloadBytes len pw) with f | context
    · rw [execInitKdf_fault len pw s f hi] at h
      cases h
    · rw [execInitKdf_ok len pw s context hi] at h
      injection h with h
      exact .inr (.inr (.inr (.inl ⟨len, pw, context, rfl, hi, by simp [← h]⟩)))
  | absorb len pw =>
    change execAbsorb len pw s = .next t at h
    rcases hv : s.engineValid with _ | _
    · rw [execAbsorb_noEngine len pw s hv] at h
      injection h with h
      exact .inl ⟨_, by decide, by simp [← h], .inr (.inl ⟨rfl, rfl, .inl rfl⟩)⟩
    rcases Nat.lt_or_ge (2 ^ 64) (s.session.totalAbsorbed + len.toNat) with hl | hl
    · rw [execAbsorb_inputLimit len pw s hv hl] at h
      injection h with h
      exact .inl ⟨_, by decide, by simp [← h], .inr (.inr ⟨rfl, rfl, len, pw, rfl, hl⟩)⟩
    rcases hi : s.session.inputData (payloadBytes len pw) with f | ses
    · rw [execAbsorb_fault len pw s f hv hl hi] at h
      cases h
    · rw [execAbsorb_ok len pw s ses hv hl hi] at h
      injection h with h
      exact .inr (.inr (.inr (.inr (.inl ⟨len, pw, ses, rfl, rfl, hl, hi, by simp [← h]⟩))))
  | squeeze len =>
    change execSqueeze len s = .next t at h
    rcases hv : s.engineValid with _ | _
    · rw [execSqueeze_noEngine len s hv] at h
      injection h with h
      exact .inl ⟨_, by decide, by simp [← h], .inr (.inl ⟨rfl, rfl, .inr (.inl rfl)⟩)⟩
    · rw [execSqueeze_ok len s hv] at h
      injection h with h
      exact .inr (.inr (.inr (.inr (.inr (.inl ⟨len, rfl, rfl, by simp [← h]⟩)))))
  | reset =>
    change execReset s = .next t at h
    rcases hv : s.engineValid with _ | _
    · rw [execReset_noEngine s hv] at h
      injection h with h
      exact .inl ⟨_, by decide, by simp [← h], .inr (.inl ⟨rfl, rfl, .inr (.inr rfl)⟩)⟩
    · rw [execReset_ok s hv] at h
      injection h with h
      exact .inr (.inr (.inr (.inr (.inr (.inr ⟨rfl, rfl, by simp [← h]⟩)))))

/-- Everything a step that answers a next state can have done: a command executed, an illegal header completed, or the core
held. -/
theorem step_cases {s t : State} (h : step s = .next t) :
    (∃ i rest, decode s.fetch = .ok (i, rest) ∧ exec i s = .next t) ∨
    (decode s.fetch = .error .illegalHeader ∧ t = s.illegalCommand) ∨
    (decode s.fetch = .error .incomplete ∧ t = s) := by
  unfold step at h
  split at h
  · rename_i i rest hd
    exact .inl ⟨i, rest, hd, h⟩
  · rename_i hd
    injection h with h
    exact .inr (.inl ⟨hd, by simp [← h]⟩)
  · rename_i hd
    injection h with h
    exact .inr (.inr ⟨hd, h.symm⟩)

/-! ### Runs -/

/-- No steps leave the state. -/
theorem run_zero (s : State) : Host.Core.run core 0 s = .next s := rfl

/-- A run of any machine, one step unfolded. -/
theorem hostRun_succ (M : Host.Core) (k : Nat) (s : M.State) : M.run (k + 1) s =
    (match M.step s with
      | .next s' => M.run k s'
      | .fault f => .fault f
      | .refused r => .refused r) := rfl

/-- A run whose first step answers a next state. -/
theorem run_succ_next (k : Nat) (s t : State) (h : step s = .next t) :
    Host.Core.run core (k + 1) s = Host.Core.run core k t := by
  have hr := hostRun_succ core k s
  have h' : core.step s = .next t := h
  rw [h'] at hr
  exact hr

/-- A run whose first step faults. -/
theorem run_succ_fault (k : Nat) (s : State) (f : Fault) (h : step s = .fault f) :
    Host.Core.run core (k + 1) s = .fault f := by
  have hr := hostRun_succ core k s
  have h' : core.step s = .fault f := h
  rw [h'] at hr
  exact hr

/-- A run whose first step refuses. -/
theorem run_succ_refused (k : Nat) (s : State) (r : Refusal) (h : step s = .refused r) :
    Host.Core.run core (k + 1) s = .refused r := by
  have hr := hostRun_succ core k s
  have h' : core.step s = .refused r := h
  rw [h'] at hr
  exact hr

end Sys2Proof.Machine
end

