-- ==== Sys2Proof/Laws/Output.lean ====
section
/-! SUPPORT. What the conversions between bytes and words and the output finalizer give, position by position and in length; and
what a push and a pop leave, entry by entry. -/

namespace Sys2Proof.Machine

/-! ### Bytes and words -/

/-- Byte `k` of `bytes_le` is byte `k mod 4` of word `floor(k/4)` (00_scope.md R13). -/
theorem bytesLe_getElem? (ws : List Word) (k : Nat) (h : k < 4 * ws.length) :
    (bytesLe ws)[k]? = (ws[k / 4]?).map fun w => w.extractLsb' (8 * (k % 4)) 8 := by
  induction ws generalizing k with
  | nil => simp at h
  | cons w ws ih =>
    simp only [List.length_cons] at h
    rw [bytesLe_cons]
    by_cases hk : k < 4
    · rw [List.getElem?_append_left (by simp; omega), show k / 4 = 0 by omega, show k % 4 = k by omega]
      interval_cases k <;> rfl
    · rw [List.getElem?_append_right (by simp; omega), wordBytes_length, ih _ (by omega),
        show k / 4 = (k - 4) / 4 + 1 by omega, show (k - 4) % 4 = k % 4 by omega]
      rfl

/-- `words_le` gives one word for each four bytes (00_scope.md R13). -/
@[simp] theorem wordsLe_length : ∀ bs : List Byte, (wordsLe bs).length = bs.length / 4
  | [] => by simp [wordsLe]
  | [_] => by simp [wordsLe]
  | [_, _] => by simp [wordsLe]
  | [_, _, _] => by simp [wordsLe]
  | _ :: _ :: _ :: _ :: bs => by
    simp only [wordsLe, List.length_cons, wordsLe_length bs]
    omega

/-- Packing `n` bytes gives `ceil(n/4)` words (43_output.md R166). -/
@[simp] theorem packBytes_length (bs : List Byte) : (packBytes bs).length = (bs.length + 3) / 4 := by
  simp only [packBytes, wordsLe_length, List.length_append, zeros_length]
  omega

/-! ### Output bytes -/

/-- An output block has 64 bytes (43_output.md R162). -/
@[simp] theorem rootBlockBytes_length (o : Output) (ctr : BitVec 64) : (rootBlockBytes o ctr).length = 64 := by
  simp [rootBlockBytes]

/-- The loop of `root_output_bytes` with enough blocks left: its length, and each of its bytes (43_output.md R162). -/
theorem rootOutputLoop_spec (o : Output) (k : Nat) : ∀ (ctr : BitVec 64) (n : Nat), n ≤ 64 * k →
    (rootOutputLoop o k ctr n).length = n ∧
    ∀ j, j < n → (rootOutputLoop o k ctr n)[j]? = (rootBlockBytes o (ctr + BitVec.ofNat 64 (j / 64)))[j % 64]? := by
  induction k with
  | zero =>
    intro ctr n h
    have h0 : n = 0 := by omega
    subst h0
    simp [rootOutputLoop]
  | succ k ih =>
    intro ctr n h
    obtain ⟨hlen, hget⟩ := ih (ctr + 1) (n - min 64 n) (by omega)
    have hblock := rootBlockBytes_length o ctr
    rw [rootOutputLoop]
    constructor
    · rw [List.length_append, hlen, List.length_take, hblock]
      omega
    · intro j hj
      by_cases h64 : j < 64
      · rw [List.getElem?_append_left (by simp [hblock]; omega), List.getElem?_take_of_lt (by omega),
          show j / 64 = 0 by omega, show j % 64 = j by omega]
        simp
      · have htake : (List.take (min 64 n) (rootBlockBytes o ctr)).length = 64 := by
          simp [hblock]
          omega
        rw [List.getElem?_append_right (by omega), htake, hget _ (by omega), show j % 64 = (j - 64) % 64 by omega,
          show j / 64 = (j - 64) / 64 + 1 by omega]
        congr 2
        rw [BitVec.add_assoc]
        congr 1
        apply BitVec.eq_of_toNat_eq
        simp [BitVec.toNat_add]
        omega

/-- `root_output_bytes(o, n)` has `n` bytes (43_output.md R162). -/
@[simp] theorem rootOutputBytes_length (o : Output) (n : Nat) : (rootOutputBytes o n).length = n :=
  (rootOutputLoop_spec o _ 0 n (by omega)).1

/-- Byte `j` of `root_output_bytes` is byte `j mod 64` of output block `floor(j/64)` (43_output.md R162). -/
theorem rootOutputBytes_getElem? (o : Output) (n j : Nat) (h : j < n) :
    (rootOutputBytes o n)[j]? = (rootBlockBytes o (BitVec.ofNat 64 (j / 64)))[j % 64]? := by
  rw [rootOutputBytes, (rootOutputLoop_spec o _ 0 n (by omega)).2 j h]
  simp

/-! ### The stack, entry by entry -/

/-- A push on a stack that is not full: one entry more, the others as before (42_tree.md R147). -/
theorem Session.push_spec (ses : Session) (cv : CV) (h : ses.stkDepth.val < 54) :
    ∃ ses', ses.push cv = .ok ses' ∧ ses'.key = ses.key ∧ ses'.sflags = ses.sflags ∧ ses'.chunk = ses.chunk ∧
      ses'.stkDepth.val = ses.stkDepth.val + 1 ∧
      ∀ d : Nat, ses'.stk[d]? = if d = ses.stkDepth.val then some cv else ses.stk[d]? := by
  refine ⟨_, Session.push_ok ses cv h, rfl, rfl, rfl, rfl, fun d => ?_⟩
  simp only [Vector.getElem?_set]
  by_cases hd : ses.stkDepth.val = d
  · subst hd
    simp
  · simp [hd, Ne.symm hd]

/-- A pop from a stack that is not empty: its top entry, one entry less, the entries as before (42_tree.md R147). -/
theorem Session.pop_spec (ses : Session) (h : 0 < ses.stkDepth.val) :
    ∃ cv ses', ses.pop = .ok (cv, ses') ∧ ses'.key = ses.key ∧ ses'.sflags = ses.sflags ∧ ses'.chunk = ses.chunk ∧
      ses'.stkDepth.val + 1 = ses.stkDepth.val ∧ ses'.stk = ses.stk ∧ ses.stk[ses'.stkDepth.val]? = some cv := by
  have hlt := ses.stkDepth.isLt
  refine ⟨_, _, Session.pop_ok ses h, rfl, rfl, rfl, ?_, rfl, ?_⟩
  · show ses.stkDepth.val - 1 + 1 = _
    omega
  · show ses.stk[ses.stkDepth.val - 1]? = _
    rw [Vector.getElem?_eq_getElem (by omega)]

end Sys2Proof.Machine
end

