-- ==== Sys2Proof/Laws/PerInstr.lean ====
section
/-! SUPPORT. Statements made per instruction, about commands as syntax: one lemma per constructor of `Instr`. -/

namespace Sys2Proof.Laws

/-- A well-formed command has as many words as 30_encoding.md R76 gives its header and its `LEN`. -/
def EncodingLength.Statement (i : Instr) : Prop := i.WellFormed → (encode i).length = i.nWords

theorem EncodingLength.initHash : EncodingLength.Statement .initHash := fun _ => rfl

theorem EncodingLength.initKeyedHash (len : BitVec 64) (payload : List Word) :
    EncodingLength.Statement (.initKeyedHash len payload) := by
  intro h
  simp only [Instr.WellFormed, Instr.wellFormed, beq_iff_eq, payloadWords] at h
  simp [encode, Op.format, Instr.payload, h]
  omega

theorem EncodingLength.initKdf (len : BitVec 64) (payload : List Word) :
    EncodingLength.Statement (.initKdf len payload) := by
  intro h
  simp only [Instr.WellFormed, Instr.wellFormed, beq_iff_eq, payloadWords] at h
  simp [encode, Op.format, Instr.payload, h]
  omega

theorem EncodingLength.absorb (len : BitVec 64) (payload : List Word) :
    EncodingLength.Statement (.absorb len payload) := by
  intro h
  simp only [Instr.WellFormed, Instr.wellFormed, beq_iff_eq, payloadWords] at h
  simp [encode, Op.format, Instr.payload, h]
  omega

theorem EncodingLength.squeeze (len : BitVec 64) : EncodingLength.Statement (.squeeze len) := by
  intro _
  simp [encode, Op.format]

theorem EncodingLength.reset : EncodingLength.Statement .reset := fun _ => rfl

end Sys2Proof.Laws
end

