-- ==== Sys2Proof/Tests/Slice0.lean ====
section
/-! SUPPORT. Tests against values of the spec (95_test_vectors.md, the encodings of 30_encoding.md), and for every statement that
has hypotheses a witness that meets them together, at the ends of the ranges its clauses speak of. -/

namespace Sys2Proof.Tests

open Sys2Proof Sys2Proof.Machine

/-! ### Helpers -/

/-- The next state of an outcome, the reset state for a fault or a refusal. -/
def nextOf (o : Host.Outcome State Fault Refusal) : State :=
  match o with
  | .next t => t
  | .fault _ => State.reset
  | .refused _ => State.reset

/-- The core right after hardware reset, with words received. -/
def withWords (ws : List Word) : State := State.reset.receive ws

/-- The core with a plain session just constructed, with words received after it. -/
def started (ws : List Word) : State :=
  { engineValid := true, session := Session.zero.init iv 0, result := .ok, errSeen := false, cp := 0, out := [], stream := ws }

/-- The key words of `KEYSTR` (95_test_vectors.md). -/
def keyWords : List Word :=
  [0x74616877, 0x68742073, 0x6C452065, 0x68736976, 0x726F7720, 0x6F662064, 0x72662072, 0x646E6569]

/-- The payload words of `CTXSTR` (95_test_vectors.md P3). -/
def contextWords : List Word :=
  [0x4B414C42, 0x32203345, 0x2D393130, 0x322D3231, 0x36312037, 0x3A39323A, 0x74203235, 0x20747365, 0x74636576, 0x2073726F,
    0x746E6F63, 0x00747865]

/-- The chaining values of chunks 0 and 1 of `pattern(2048)` (V-C8) and of their parent (V-T7). -/
def cv0 : CV := #v[0x44659E5C, 0xD193E311, 0x10C7BEF4, 0x56BCD5CC, 0x7D17AB69, 0xB60E0A61, 0xE9FEFC91, 0xB1E8B42F]
def cv1 : CV := #v[0xB8231F5B, 0xA2680339, 0x919550C1, 0xB7D18903, 0xA652EB16, 0x0A4DD3DF, 0xA2226AA6, 0xA71C761B]
def cv01 : CV := #v[0x4F7D1F81, 0x8E253517, 0x928BC627, 0x4A7CFF14, 0x476D86AC, 0xF1EE3DF7, 0xB50889FD, 0x4F808FE3]

/-- A plain session at the last byte but one of `MAX_INPUT`: `2^54 - 1` chunks completed, 1023 bytes in the current one. -/
def almostFull : Session :=
  { Session.zero with
    stkDepth := 54
    chunk := { Chunk.zero with csCtr := 0x3FFFFFFFFFFFFF, csBcomp := 15, csBlen := 63 } }

/-- A state whose session is `almostFull`. -/
def almostFullState : State := { started [] with session := almostFull }

/-! ### WellFormed refuses ill-formed terms -/

theorem test_wellFormed_keyed : (Instr.initKeyedHash 32 keyWords).wellFormed = true ∧
    (Instr.initKeyedHash 32 (keyWords.take 7)).wellFormed = false ∧
    (Instr.initKeyedHash 33 keyWords).wellFormed = false := by decide

theorem test_wellFormed_kdf : (Instr.initKdf 47 contextWords).wellFormed = true ∧
    (Instr.initKdf 49 contextWords).wellFormed = false ∧ (Instr.initKdf 0 [0]).wellFormed = false := by decide

theorem test_wellFormed_absorb : (Instr.absorb 3 [0x00636261]).wellFormed = true ∧
    (Instr.absorb 3 []).wellFormed = false ∧ (Instr.absorb 4 [0, 0]).wellFormed = false := by decide

/-! ### Decoding of words written out from the spec's encodings -/

theorem test_decode_initHash : decode [0x00000001, 0x00000006] = .ok (.initHash, [0x00000006]) := by decide

theorem test_decode_initKeyedHash : decode ([0x00000002, 0x00000020, 0x00000000] ++ keyWords) =
    .ok (.initKeyedHash 32 keyWords, []) := by decide

theorem test_decode_initKdf : decode ([0x00000003, 0x0000002F, 0x00000000] ++ contextWords) =
    .ok (.initKdf 47 contextWords, []) := by decide

theorem test_decode_absorb : decode [0x00000004, 0x00000003, 0x00000000, 0x00636261, 0x00000005] =
    .ok (.absorb 3 [0x00636261], [0x00000005]) := by decide

/-- `LEN_HI` is the high half of `LEN` (R73). -/
theorem test_decode_squeeze : decode [0x00000005, 0x00000020, 0x00000001] = .ok (.squeeze 0x0000000100000020, []) := by decide

theorem test_decode_reset : decode [0x00000006] = .ok (.reset, []) := by decide

/-- V-E1, V-E2 and the first reserved opcode: illegal whatever follows. -/
theorem test_decode_illegal : decode [0x00000000] = .error .illegalHeader ∧ decode [0x00000010] = .error .illegalHeader ∧
    decode [0x00000014, 0, 0] = .error .illegalHeader ∧ decode [0x00000007] = .error .illegalHeader ∧
    decode [0x0000000F] = .error .illegalHeader ∧ decode [0x80000001] = .error .illegalHeader := by decide

/-- V-E7 and R209: words are missing. -/
theorem test_decode_incomplete : decode [] = .error .incomplete ∧ decode [0x00000005, 0x00000020] = .error .incomplete ∧
    decode [0x00000004, 0x00000008, 0x00000000, 0x64636261] = .error .incomplete := by decide

theorem test_encode_absorb : encode (.absorb 3 [0x00636261]) = [0x00000004, 0x00000003, 0x00000000, 0x00636261] := by decide

/-- The header word of each table row, operand words of zeros. -/
theorem test_decodeTableWord : decodeTableWord 32 1 = some .initHash ∧ decodeTableWord 32 2 = some (.initKeyedHash 0 []) ∧
    decodeTableWord 32 3 = some (.initKdf 0 []) ∧ decodeTableWord 32 4 = some (.absorb 0 []) ∧
    decodeTableWord 32 5 = some (.squeeze 0) ∧ decodeTableWord 32 6 = some .reset ∧ decodeTableWord 32 7 = none := by decide

/-- A row's word whose length word asks for a payload gets payload words of zeros. -/
theorem test_decodeTableWord_payload : decodeTableWord 64 (0x00000005 <<< 32 ||| 4) = some (.absorb 5 [0, 0]) := by decide

/-- The step after `withFetchWord` runs the row's command: `RESET` and `SQUEEZE` without a session (V-E4, V-E5). -/
theorem test_withFetchWord : (nextOf (step (State.reset.withFetchWord 32 6))).status = 0x00000013 ∧
    (nextOf (step (State.reset.withFetchWord 32 5))).cp = 3 ∧
    (nextOf (step (State.reset.withFetchWord 32 1))).status = 0x00000020 := by decide

/-- The assembly notation of R85. -/
theorem test_asmLine : asmLine (.absorb 3 [0x00636261]) = "ABSORB 3, x\"616263\"" ∧ asmLine (.squeeze 32) = "SQUEEZE 32" ∧
    asmLine .reset = "RESET" := by decide

/-! ### Words and the compression primitive (V-P) -/

/-- V-P1. -/
theorem test_rotr32 : rotr32 0x00000001 7 = 0x02000000 ∧ rotr32 0x80000000 16 = 0x00008000 ∧
    rotr32 0x12345678 8 = 0x78123456 ∧ rotr32 0xFFFFFFFF 12 = 0xFFFFFFFF := by decide

/-- V-P2, second row. -/
theorem test_g : (g (Vector.replicate 16 0) 0 4 8 12 0xFFFFFFFF 0xFFFFFFFF).toList =
    [0xFFFFFFFD, 0, 0, 0, 0x01FC0000, 0, 0, 0, 0x01FFFFFF, 0, 0, 0, 0x02000000, 0, 0, 0] := by decide +kernel

/-- V-P2, third row. -/
theorem test_g_iv : (g (((Vector.replicate 16 0).set 0 0x6A09E667).set 4 0x510E527F |>.set 8 0x6A09E667) 0 4 8 12 0 0).toList =
    [0xEB2778D5, 0, 0, 0, 0x5A8196B9, 0, 0, 0, 0x70C46342, 0, 0, 0, 0xCDD3C1C3, 0, 0, 0] := by decide +kernel

/-- V-P6: the counter's high word, the block length and the word order. -/
theorem test_compress : (compress iv (Vector.ofFn fun i => BitVec.ofNat 32 i.val) 64 0x0000000100000001 0x04).toList =
    [0x7181734A, 0x9E44D97E, 0xFD930D1F, 0x9C5060C0, 0x9F9CF77D, 0x980BAA8D, 0x4E05EB4A, 0xFBF6B5FB,
      0xF14EBBC2, 0xFBA8BA2E, 0x649C4221, 0xC6EBF735, 0x4380F54C, 0x91C8D09A, 0xEEF6D183, 0x29C0FFE0] := by decide +kernel

/-- V-P7. -/
theorem test_permute : (permute (Vector.ofFn fun i => BitVec.ofNat 32 i.val)).toList =
    [2, 6, 3, 10, 7, 0, 4, 13, 1, 11, 12, 5, 9, 14, 15, 8] := by decide +kernel

/-! ### Chunk and tree (V-C, V-T) -/

/-- V-C3b: a full block stays in the buffer. -/
theorem test_chunk_full_block : (Chunk.start iv 0 |>.update 0 (List.replicate 64 7)).csBlen.val = 64 ∧
    (Chunk.start iv 0 |>.update 0 (List.replicate 64 7)).csBcomp.val = 0 := by decide +kernel

/-- V-C4: the 65th byte compresses it. -/
theorem test_chunk_next_block : (Chunk.start iv 0 |>.update 0 (List.replicate 65 7)).csBlen.val = 1 ∧
    (Chunk.start iv 0 |>.update 0 (List.replicate 65 7)).csBcomp.val = 1 := by decide +kernel

/-- V-T7, `P(c0, c1)`, and V-T3's collapse: the chunk that makes `total = 2` merges with the entry below it. -/
theorem test_merge : ((({ Session.zero.init iv 0 with stk := Session.zero.stk.set 0 cv0, stkDepth := 1 } : Session).addChunkCv cv1 2).map
    fun ses => (ses.stkDepth.val, ses.stk[0])) = .ok (1, cv01) := by decide +kernel

/-- V-T2: `Root(c0, c1)`, first 8 words (bytes `e776b602 8c7cd22a ...`). -/
theorem test_root_of_parent : (wordsLe (rootOutputBytes (parentOutput iv 0 cv0 cv1) 32)).take 2 = [0x02B676E7, 0x2AD27C8C] := by
  decide +kernel

/-- R210: the internal faults. -/
theorem test_stack_faults : (Session.zero.pop.map fun p => p.1) = .error .stackUnderflow ∧
    (({ Session.zero with stkDepth := 54 } : Session).push cv0) = .error .stackOverflow := by
  constructor
  · decide +kernel
  · rfl

/-! ### Commands -/

/-- V-M1. -/
theorem test_initHash : (nextOf (step (withWords [0x00000001]))).status = 0x00000020 ∧
    (nextOf (step (withWords [0x00000001]))).session.key = iv ∧ (nextOf (step (withWords [0x00000001]))).cp = 1 := by
  decide +kernel

/-- V-M2: the key words, and `SFLAGS`. -/
theorem test_initKeyedHash : (nextOf (exec (.initKeyedHash 32 keyWords) State.reset)).session.key.toList = keyWords ∧
    (nextOf (exec (.initKeyedHash 32 keyWords) State.reset)).session.sflags = 0x10 := by decide +kernel

/-- V-M3: lengths 0, 31 and 33. -/
theorem test_initKeyedHash_length : (nextOf (exec (.initKeyedHash 0 []) State.reset)).status = 0x00000011 ∧
    (nextOf (exec (.initKeyedHash 0 []) State.reset)).cp = 3 ∧
    (nextOf (exec (.initKeyedHash 31 keyWords) State.reset)).status = 0x00000011 ∧
    (nextOf (exec (.initKeyedHash 33 (keyWords ++ [0])) State.reset)).cp = 12 := by decide +kernel

/-- V-M4: the derived key and `SFLAGS`; nothing is emitted. -/
theorem test_initKdf : (nextOf (exec (.initKdf 47 contextWords) State.reset)).session.key.toList =
    [0xDF278E8E, 0xBF30917B, 0x0771ED47, 0x222EE100, 0x0E388A39, 0xC1E00FFB, 0x20919033, 0x869A61F8] ∧
    (nextOf (exec (.initKdf 47 contextWords) State.reset)).session.sflags = 0x40 ∧
    (nextOf (exec (.initKdf 47 contextWords) State.reset)).out = [] := by decide +kernel

/-- P1: `ABSORB 3, "abc"`, its buffer words. -/
theorem test_absorb : (nextOf (exec (.absorb 3 [0x00636261]) (started []))).session.chunk.csBlen.val = 3 ∧
    (blockWords (nextOf (exec (.absorb 3 [0x00636261]) (started []))).session.chunk.csBuf).toList =
      0x00636261 :: List.replicate 15 0 := by decide +kernel

/-- R208: `INPUT_LIMIT` one byte past `MAX_INPUT`, and not at it. -/
theorem test_absorb_limit : (nextOf (exec (.absorb 2 [0]) almostFullState)).result = .inputLimit ∧
    (nextOf (exec (.absorb 1 [0]) almostFullState)).result = .ok ∧
    (nextOf (exec (.absorb 1 [0]) almostFullState)).session.totalAbsorbed = 2 ^ 64 := by decide +kernel

/-- V-O2, row 5: two words, the last one padded with zeros. -/
theorem test_squeeze : (nextOf (exec (.squeeze 5) (started []))).out = [0xB94913AF, 0x000000F5] := by decide +kernel

/-- V-O2, row 128, word 16: the second output block has output block counter 1. -/
theorem test_squeeze_second_block : (nextOf (exec (.squeeze 68) (started []))).out.getD 16 0 = 0x7748F526 := by decide +kernel

/-- P1's output words. -/
theorem test_hash_abc : (nextOf (exec (.squeeze 32) (nextOf (exec (.absorb 3 [0x00636261]) (started []))))).out =
    [0xACB33764, 0x33514638, 0x753BB6FF, 0xB58D3A27, 0x4658C548, 0x03DB795D, 0x6C9C35FD, 0x859DBDD5] := by decide +kernel

/-- V-M6, V-M7: `RESET` empties the session and keeps key and flags. -/
theorem test_reset : (nextOf (exec .reset almostFullState)).session.chunk.csCtr = 0 ∧
    (nextOf (exec .reset almostFullState)).session.stkDepth.val = 0 ∧
    (nextOf (exec .reset { started [] with session := { almostFull with sflags := 0x10 } })).session.sflags = 0x10 := by
  decide +kernel

/-! ### Errors (V-E) -/

/-- V-E1. -/
theorem test_illegal_header : (nextOf (step (withWords [0x00000000]))).status = 0x00000012 ∧
    (nextOf (step (withWords [0x00000000]))).cp = 1 := by decide

/-- V-E3, V-E4, V-E5. -/
theorem test_no_engine : (nextOf (step (withWords [0x00000004, 0x00000001, 0x00000000, 0x00000078]))).status = 0x00000013 ∧
    (nextOf (step (withWords [0x00000004, 0x00000001, 0x00000000, 0x00000078]))).cp = 4 ∧
    (nextOf (step (withWords [0x00000006]))).status = 0x00000013 := by decide

/-- V-E6: the plain session survives a failed construction. -/
theorem test_failed_construction : (nextOf (exec (.initKeyedHash 31 keyWords) (started []))).status = 0x00000031 ∧
    (nextOf (exec (.initKeyedHash 31 keyWords) (started []))).session.key = iv := by decide +kernel

/-- V-E7: held, nothing changed. -/
theorem test_held : step (started [0x00000004, 0x00000008, 0x00000000, 0x64636261]) =
    .next (started [0x00000004, 0x00000008, 0x00000000, 0x64636261]) := rfl

/-! ### The parameters (R9) -/

/-- The derived parameters of R9: 16 blocks in a chunk, and a stack for `2^54` chunks of `MAX_INPUT`. -/
theorem test_config : Config.blockLen * 16 = Config.chunkLen ∧ Config.chunkLen * 2 ^ Config.stackCap = Config.maxInput ∧
    Config.digestLen.toNat = Config.keyLen := by decide

/-! ### Witnesses: for every statement with hypotheses, values that meet them together -/

/-- The six commands answer a next state (the hypothesis `exec i s = .next t` of several statements). -/
theorem witness_exec_next (s : State) (h : s.engineValid = true) (hl : s.session.totalAbsorbed ≤ 2 ^ 64) :
    (∃ t, exec .initHash s = .next t) ∧ (∃ t, exec (.initKeyedHash 32 keyWords) s = .next t) ∧
    (∃ t, exec (.initKeyedHash 31 keyWords) s = .next t) ∧ (∃ t, exec (.initKdf 0 []) s = .next t) ∧
    (∃ t, exec (.absorb 0 []) s = .next t) ∧ (∃ t, exec (.squeeze 0) s = .next t) ∧ (∃ t, exec .reset s = .next t) :=
  ⟨⟨_, execInitHash_eq s⟩, ⟨_, execInitKeyedHash_ok 32 keyWords s rfl⟩,
    ⟨_, execInitKeyedHash_error 31 keyWords s (by decide)⟩, ⟨_, execInitKdf_ok 0 [] s _ (Session.inputData_nil _)⟩,
    ⟨_, execAbsorb_ok 0 [] s s.session h hl (Session.inputData_nil _)⟩, ⟨_, execSqueeze_ok 0 s h⟩, ⟨_, execReset_ok s h⟩⟩

/-- Its own hypotheses are met. -/
theorem witness_exec_next_hyps : (started []).engineValid = true ∧ (started []).session.totalAbsorbed ≤ 2 ^ 64 := by decide

/-- A session one byte short of the maximum is legal. -/
theorem almostFull_legal : almostFull.Legal where
  flags := .inl rfl
  depth := by decide
  bound := by decide
  pending := fun _ => by decide
  lazyBlock := fun _ => by decide
  zeroTail := fun i _ => by simp [almostFull, Chunk.zero]

/-- The invariant holds in a state with a session. -/
theorem almostFullState_inv : almostFullState.Inv where
  cpBound := by decide
  session := fun _ => almostFull_legal
  sticky := fun h => absurd rfl h
  silent := fun h => absurd h (by decide)

/-- 1025 bytes: two chunks. -/
def twoChunkMessage : List Byte := List.replicate 1025 7

/-- A session that holds them. -/
def twoChunks : Session :=
  { key := iv, sflags := 0
    chunk := (Chunk.start iv 1).update 0 (twoChunkMessage.drop 1024)
    stk := Session.zero.stk.set 0 (outputCv (treeOutput iv 0 twoChunkMessage 1 0 1))
    stkDepth := 1 }

theorem twoChunkMessage_length : twoChunkMessage.length = 1025 := List.length_replicate

theorem twoChunks_csCtr : twoChunks.chunk.csCtr = 1 := by decide +kernel

theorem twoChunks_chunk : twoChunks.chunk = (Chunk.start iv 1).update 0 (twoChunkMessage.drop 1024) := by
  simp only [twoChunks]

theorem twoChunks_represents : twoChunks.Represents twoChunkMessage where
  bound := by rw [twoChunkMessage_length]; decide
  complete := by rw [twoChunkMessage_length, twoChunks_csCtr]; decide
  pending := fun _ => by rw [twoChunkMessage_length, twoChunks_csCtr]; decide
  room := by rw [twoChunkMessage_length, twoChunks_csCtr]; decide
  chunk := by rw [twoChunks_csCtr]; exact twoChunks_chunk
  depth := by rw [twoChunks_csCtr]; decide
  entries := fun b hb h => by
    rw [twoChunks_csCtr] at h ⊢
    have hall : ∀ b : Fin 64, b.val ≠ 0 → (1 : BitVec 64).getLsbD b.val = false := by decide
    rcases Nat.eq_zero_or_pos b with h0 | hpos
    · subst h0
      have h1 : popcount ((1 : BitVec 64) >>> (0 + 1)) = 0 := by decide
      rw [h1]
      exact (Vector.getElem?_set_self (by decide)).trans rfl
    · rw [hall ⟨b, hb⟩ (Nat.ne_of_gt hpos)] at h
      cases h

theorem witness_DecodeOfEncodeIsTheCommand : (Instr.absorb 3 [0x00636261]).WellFormed ∧ (Instr.initKdf 0 []).WellFormed ∧
    (Instr.squeeze 0xFFFFFFFFFFFFFFFF).WellFormed := by decide

theorem witness_DecodedCommandIsExactlyItsWords :
    decode [0x00000004, 0x00000003, 0x00000000, 0x00636261, 0x00000006] = .ok (.absorb 3 [0x00636261], [0x00000006]) := by decide

/-- The pad bytes of the two payloads differ, their one byte does not. -/
theorem witness_PayloadBytesAreLittleEndianAndPadIsIgnored : [(0xFFFFFF41 : Word)].length = ((1 : BitVec 64).toNat + 3) / 4 ∧
    0 < (1 : BitVec 64).toNat ∧ payloadBytes 1 [0xFFFFFF41] = payloadBytes 1 [0x00000041] := by decide

theorem witness_PackedPayloadReadsBack : [(1 : Byte), 2, 3, 4, 5].length < 2 ^ 64 := by decide

theorem witness_BytesAndWordsAreInverse : [(1 : Byte), 2, 3, 4].length % 4 = 0 := by decide

theorem witness_StepExecutesTheCommandAtCp : decode (withWords [0x00000006]).fetch = .ok (.reset, []) ∧
    Instr.reset.WellFormed ∧ (withWords [0x00000006]).fetch = encode .reset ++ [] := by decide

/-- Each of the three kinds of illegal header, at the ends of their ranges. -/
theorem witness_IllegalHeaderCompletesWithIllegalCommand :
    ((withWords [0x00000011, 1]).fetch = 0x00000011 :: [1] ∧ (0x00000011 : Word).extractLsb' 4 28 ≠ 0) ∧
    ((withWords [0x80000001]).fetch = 0x80000001 :: [] ∧ (0x80000001 : Word).extractLsb' 4 28 ≠ 0) ∧
    ((withWords [0x00000000]).fetch = 0x00000000 :: [] ∧ (0x00000000 : Word).extractLsb' 0 4 = 0) ∧
    ((withWords [0x00000007]).fetch = 0x00000007 :: [] ∧ 7 ≤ ((0x00000007 : Word).extractLsb' 0 4).toNat) ∧
    ((withWords [0x0000000F]).fetch = 0x0000000F :: [] ∧ 7 ≤ ((0x0000000F : Word).extractLsb' 0 4).toNat) := by decide

/-- V-E7's command with its last word missing, and a command of which no word has come. -/
theorem witness_IncompleteCommandIsHeldUntilItsWordsArrive :
    ((Instr.absorb 8 [0x64636261, 0x68676665]).WellFormed ∧
      encode (.absorb 8 [0x64636261, 0x68676665]) = [0x00000004, 8, 0, 0x64636261] ++ [0x68676665] ∧
      ([0x68676665] : List Word) ≠ [] ∧ (withWords [0x00000004, 8, 0, 0x64636261]).cp ≤
        (withWords [0x00000004, 8, 0, 0x64636261]).stream.length ∧
      (withWords [0x00000004, 8, 0, 0x64636261]).fetch = [0x00000004, 8, 0, 0x64636261]) ∧
    (Instr.reset.WellFormed ∧ encode .reset = [] ++ [0x00000006] ∧ ([0x00000006] : List Word) ≠ [] ∧
      (withWords []).cp ≤ (withWords []).stream.length ∧ (withWords []).fetch = []) := by decide

/-- Each error a command gives, and an illegal header. -/
theorem witness_ErrorChangesOnlyStatusAndCp :
    (∃ t, exec (.absorb 0 []) State.reset = .next t ∧ t.result ≠ .ok) ∧
    (∃ t, exec (.initKeyedHash 0 []) State.reset = .next t ∧ t.result ≠ .ok) ∧
    (∃ t, exec (.absorb 2 [0]) almostFullState = .next t ∧ t.result ≠ .ok) ∧
    decode (withWords [0x00000010]).fetch = .error .illegalHeader :=
  ⟨⟨_, execAbsorb_noEngine 0 [] State.reset rfl, by decide⟩, ⟨_, execInitKeyedHash_error 0 [] State.reset (by decide), by decide⟩,
    ⟨_, execAbsorb_inputLimit 2 [0] almostFullState rfl (by decide), by decide⟩, by decide⟩

/-- Both values of the key check, and both sides of the input bound. -/
theorem witness_ResultIsTheFirstFailedCheck : (∃ t, exec (.initKeyedHash 32 keyWords) State.reset = .next t) ∧
    (∃ t, exec (.initKeyedHash 33 (keyWords ++ [0])) State.reset = .next t) ∧
    (∃ t, exec (.squeeze 0) State.reset = .next t) ∧ (∃ t, exec (.absorb 2 [0]) almostFullState = .next t) ∧
    (∃ t, exec (.absorb 1 [0]) almostFullState = .next t) :=
  ⟨⟨_, execInitKeyedHash_ok 32 keyWords State.reset rfl⟩,
    ⟨_, execInitKeyedHash_error 33 (keyWords ++ [0]) State.reset (by decide)⟩, ⟨_, execSqueeze_noEngine 0 State.reset rfl⟩,
    ⟨_, execAbsorb_inputLimit 2 [0] almostFullState rfl (by decide)⟩,
    ⟨_, execAbsorb_ok 1 [0] almostFullState (almostFull.chunkUpdate [0]) rfl (by decide) rfl⟩⟩

/-- A step with `ERR_SEEN` set before it, and one that sets it. -/
theorem witness_ErrSeenIsSticky :
    (∃ s t : State, step s = .next t ∧ s.errSeen = true) ∧
    (∃ s t : State, step s = .next t ∧ s.errSeen = false ∧ t.errSeen = true) :=
  ⟨⟨{ started [] with errSeen := true }, _, rfl, rfl⟩, ⟨withWords [0], _, rfl, rfl, rfl⟩⟩

/-- A step that emits words. -/
theorem witness_OutOnlyGrowsAndOnlyBySqueeze : ∃ t, step (started [0x00000005, 4, 0]) = .next t ∧ t.out ≠ [] :=
  ⟨_, execSqueeze_ok 4 (started [0x00000005, 4, 0]) rfl, by decide +kernel⟩

theorem witness_NoEngineExactlyWithoutASession : State.reset.engineValid = false ∧ (Instr.absorb 0 []).op = .absorb ∧
    (Instr.squeeze 0).op = .squeeze ∧ Instr.reset.op = .reset ∧
    ∃ t, exec .reset State.reset = .next t ∧ t.result = .noEngine :=
  ⟨rfl, rfl, rfl, rfl, _, execReset_noEngine State.reset rfl, rfl⟩

theorem witness_InitKeyedHashTakesTheEightPayloadWords : keyWords.length = 8 := by decide

theorem witness_WrongKeyLengthLeavesThePreviousSession : (0 : BitVec 64).toNat ≠ 32 ∧ (31 : BitVec 64).toNat ≠ 32 ∧
    (33 : BitVec 64).toNat ≠ 32 := by decide

theorem witness_InitKdfDerivesTheKeyFromTheContextTree : ([] : List Word).length = ((0 : BitVec 64).toNat + 3) / 4 ∧
    contextWords.length = ((47 : BitVec 64).toNat + 3) / 4 := by decide

theorem witness_ResetKeepsKeyAndFlags : (started []).engineValid = true ∧ State.reset.engineValid = false := ⟨rfl, rfl⟩

theorem witness_ResetUndoesEverySessionUse : ∃ t₀ t, exec .initHash State.reset = .next t₀ ∧ t₀.result = .ok ∧
    (∀ i ∈ [Instr.absorb 0 [], .squeeze 4, .reset], i.op = .absorb ∨ i.op = .squeeze ∨ i.op = .reset) ∧
    execAll [Instr.absorb 0 [], .squeeze 4, .reset] t₀ = .next t :=
  ⟨_, _, execInitHash_eq _, rfl, by decide, rfl⟩

theorem witness_ConstructionDiscardsThePreviousSession : (∃ t, exec .initHash State.reset = .next t ∧ t.result = .ok) ∧
    (∃ t, exec (.initKeyedHash 32 keyWords) State.reset = .next t ∧ t.result = .ok) ∧
    (∃ t, exec (.initKdf 0 []) State.reset = .next t ∧ t.result = .ok) :=
  ⟨⟨_, execInitHash_eq _, rfl⟩, ⟨_, execInitKeyedHash_ok 32 keyWords State.reset rfl, rfl⟩,
    ⟨_, execInitKdf_ok 0 [] State.reset _ (Session.inputData_nil _), rfl⟩⟩

theorem witness_QuarterRoundComputesItsFourWords : [(0 : Fin 16), 4, 8, 12].Nodup := by decide

theorem witness_QuarterRoundsOnDisjointWordsCommute : [(0 : Fin 16), 4, 8, 12].Disjoint [1, 5, 9, 13] := by
  intro a; revert a; decide

/-- The chunk becomes exactly full. -/
theorem witness_ChunkUpdateGrowsByItsBytes : almostFull.chunk.len + [(7 : Byte)].length ≤ 1024 ∧ [(7 : Byte)] ≠ [] := by decide

/-- The buffer becomes exactly full, or is already. -/
theorem witness_BytesThatFitTheBufferAreOnlyStored : almostFull.chunk.csBlen.val + [(7 : Byte)].length ≤ 64 ∧
    ({ almostFull.chunk with csBlen := 64 } : Chunk).csBlen.val + ([] : List Byte).length ≤ 64 := by decide

/-- The first and the last block this can happen to. -/
theorem witness_ByteAfterAFullBufferCompressesIt :
    (({ Chunk.zero with csBlen := 64 } : Chunk).csBlen.val = 64 ∧ ({ Chunk.zero with csBlen := 64 } : Chunk).csBcomp.val < 15) ∧
    (({ Chunk.zero with csBlen := 64, csBcomp := 14 } : Chunk).csBlen.val = 64 ∧
      ({ Chunk.zero with csBlen := 64, csBcomp := 14 } : Chunk).csBcomp.val < 15) := by decide

/-- `LEN` up to the bound exactly. -/
theorem witness_AbsorbCompletesAndAddsItsBytes : [(0 : Word)].length = ((1 : BitVec 64).toNat + 3) / 4 ∧
    almostFullState.engineValid = true ∧ almostFullState.session.Legal ∧
    almostFullState.session.totalAbsorbed + (1 : BitVec 64).toNat ≤ 2 ^ 64 :=
  ⟨by decide, rfl, almostFull_legal, by decide⟩

/-- One byte past the bound. -/
theorem witness_InputLimitExactlyPastTheMaximum : almostFullState.engineValid = true ∧
    1024 * almostFullState.session.chunk.csCtr.toNat + almostFullState.session.chunk.len + (2 : BitVec 64).toNat > 2 ^ 64 ∧
    ∃ t, exec (.absorb 2 [0]) almostFullState = .next t ∧ t.result = .inputLimit :=
  ⟨rfl, by decide, _, execAbsorb_inputLimit 2 [0] almostFullState rfl (by decide), rfl⟩

/-- An empty payload and one of one byte, up to the bound exactly, with pad bytes that differ; and two of which neither is
empty. -/
theorem witness_AbsorbsConcatenate :
    ((Instr.absorb 0 []).WellFormed ∧ (Instr.absorb 1 [0xFFFFFF07]).WellFormed ∧ (Instr.absorb 1 [0x00000007]).WellFormed ∧
      payloadBytes 1 [0x00000007] = payloadBytes 0 [] ++ payloadBytes 1 [0xFFFFFF07] ∧
      almostFullState.engineValid = true ∧ almostFullState.session.Legal ∧
      almostFullState.session.totalAbsorbed + (1 : BitVec 64).toNat ≤ 2 ^ 64) ∧
    ((Instr.absorb 3 [0xFF030201]).WellFormed ∧ (Instr.absorb 2 [0xFFFF0504]).WellFormed ∧
      (Instr.absorb 5 [0x04030201, 0x00000005]).WellFormed ∧
      payloadBytes 5 [0x04030201, 0x00000005] = payloadBytes 3 [0xFF030201] ++ payloadBytes 2 [0xFFFF0504]) :=
  ⟨⟨by decide, by decide, by decide, by decide, rfl, almostFull_legal, by decide⟩, by decide⟩

/-- The first and the last chunk that can be completed. -/
theorem witness_MergingKeepsTheStackDepth :
    (1 ≤ (1 : BitVec 64).toNat ∧ (1 : BitVec 64).toNat < 2 ^ 54 ∧ Session.zero.stkDepth.val = popcount (1 - 1)) ∧
    (1 ≤ (0x3FFFFFFFFFFFFF : BitVec 64).toNat ∧ (0x3FFFFFFFFFFFFF : BitVec 64).toNat < 2 ^ 54 ∧
      ({ Session.zero with stkDepth := 53 } : Session).stkDepth.val = popcount (0x3FFFFFFFFFFFFF - 1)) := by decide

theorem witness_AbsorbingKeepsTheTreeOnTheStack : twoChunks.Represents twoChunkMessage ∧
    twoChunkMessage.length + [(7 : Byte)].length ≤ 2 ^ 64 :=
  ⟨twoChunks_represents, by rw [twoChunkMessage_length]; decide⟩

theorem witness_RootOutputIsTheRootOfTheTree : twoChunks.Represents twoChunkMessage := twoChunks_represents

theorem witness_SqueezeEmitsTheRootOutputBytes : (started []).engineValid = true := rfl

theorem witness_ShorterSqueezeIsAPrefix : (started []).engineValid = true ∧ (65 : BitVec 64).toNat ≤ (65 : BitVec 64).toNat ∧
    (0 : BitVec 64).toNat ≤ (1 : BitVec 64).toNat := by decide

/-- Each legal value of the flags, and the empty and the full stack. -/
theorem witness_RootOutputShapeAndFlags : Session.zero.sflags = 0 ∧ Session.zero.stkDepth.val = 0 ∧ almostFull.sflags = 0 ∧
    almostFull.stkDepth.val = 54 ∧ (Session.zero.init iv flagKeyedHash).sflags = 0x10 ∧
    (Session.zero.init iv flagDeriveKeyContext).sflags = 0x20 ∧
    (Session.zero.init iv flagDeriveKeyMaterial).sflags = 0x40 := by decide

/-- A squeeze with a session and one without. -/
theorem witness_AbsorbAfterSqueezeContinues : (∃ t, exec (.squeeze 32) (started []) = .next t) ∧
    (∃ t, exec (.squeeze 32) State.reset = .next t) :=
  ⟨⟨_, execSqueeze_ok 32 (started []) rfl⟩, ⟨_, execSqueeze_noEngine 32 State.reset rfl⟩⟩

theorem witness_HashPseudoCommandGivesTheTreeDigest : ([] : List Byte).length < 2 ^ 64 := by decide

/-- A key of 32 bytes; wrong key lengths at the ends of their ranges, with and without a session before. -/
theorem witness_KeyedHashAndDeriveKeyGiveTheTreeOutput :
    ((List.replicate 32 (7 : Byte)).length = 32 ∧ [(7 : Byte)].length < 2 ^ 64) ∧
    (∀ n ∈ [0, 31, 33], (List.replicate n (7 : Byte)).length ≠ 32 ∧ (List.replicate n (7 : Byte)).length < 2 ^ 64) ∧
    State.reset.engineValid = false ∧ (started []).engineValid = true := by decide

/-- The ends of the two ranges of numbers that name nothing, and the numbers beside them. -/
theorem witness_StateElementNumbers : State.reset.element 0x02F = some 0 ∧ State.reset.element 0x030 = none ∧
    State.reset.element 0x0FF = none ∧ State.reset.element 0x100 = some 0 ∧ State.reset.element 0x2AF = some 0 ∧
    State.reset.element 0x2B0 = none := by decide +kernel

theorem witness_EveryStepKeepsTheInvariant : almostFullState.Inv ∧ ∃ t, step almostFullState = .next t :=
  ⟨almostFullState_inv, _, rfl⟩

theorem witness_NoStepFaultsUnderTheInvariant : almostFullState.Inv := almostFullState_inv

/-- States that differ in everything dead: before any session, and above the stack depth. -/
theorem witness_StepDoesNotReadDeadRegisters :
    State.reset.LiveEq { State.reset with session := almostFull } ∧
    (started []).LiveEq { started [] with session := { (started []).session with stk := Session.zero.stk.set 0 cv0 } } :=
  ⟨⟨rfl, rfl, rfl, rfl, rfl, rfl, fun h => absurd h (by decide)⟩,
    ⟨rfl, rfl, rfl, rfl, rfl, rfl, fun _ => ⟨rfl, rfl, rfl, rfl, fun d h => absurd h (Nat.not_lt_zero d.val)⟩⟩⟩

/-- A state with one whole command, which the run executes, and one held at an incomplete command. -/
theorem witness_RunEndsWithinTheWordsLeft :
    (∃ s t : State, s.Inv ∧ s.stream.length - s.cp ≤ 1 ∧ step s = .next t ∧ t.cp = s.cp + 1) ∧
    (∃ s : State, s.Inv ∧ s.stream.length - s.cp ≤ 3 ∧ s.fetch = [0x00000004, 8, 0] ∧ s.AtRest) :=
  ⟨⟨{ almostFullState with stream := [0x00000006] }, _,
      { cpBound := by decide, session := fun _ => almostFull_legal, sticky := fun h => absurd rfl h,
        silent := fun h => absurd h (by decide) }, by decide, rfl, rfl⟩,
    ⟨{ almostFullState with stream := [0x00000004, 8, 0] },
      { cpBound := by decide, session := fun _ => almostFull_legal, sticky := fun h => absurd rfl h,
        silent := fun h => absurd h (by decide) }, by decide, rfl, rfl⟩⟩

end Sys2Proof.Tests
end

/-! Proofs about the conversions between bytes and words (00_scope.md R13). -/

namespace Sys2Proof.Machine

/-- The first word of `words_le` is `LE32` of the first four bytes. -/
@[simp] theorem wordsLe_four_cons (b0 b1 b2 b3 : Byte) (bs : List Byte) :
    wordsLe (b0 :: b1 :: b2 :: b3 :: bs) = le32 b0 b1 b2 b3 :: wordsLe bs := rfl

@[simp] theorem wordsLe_wordBytes_append (w : Word) (bs : List Byte) :
    wordsLe (wordBytes w ++ bs) = w :: wordsLe bs := by
  simp only [wordBytes, List.cons_append, List.nil_append, wordsLe_four_cons, le32_wordBytes]

@[simp] theorem wordsLe_bytesLe (ws : List Word) : wordsLe (bytesLe ws) = ws := by
  induction ws with
  | nil => rfl
  | cons w ws ih => rw [bytesLe_cons, wordsLe_wordBytes_append, ih]

/-- By the recursion of `words_le`; the length leaves out the lists that end in an incomplete word. -/
theorem bytesLe_wordsLe : ∀ bs : List Byte, bs.length % 4 = 0 → bytesLe (wordsLe bs) = bs
  | [], _ => rfl
  | [_], h | [_, _], h | [_, _, _], h => by simp at h
  | b0 :: b1 :: b2 :: b3 :: bs, h => by
    have hbs : bs.length % 4 = 0 := by simpa only [List.length_cons, Nat.add_assoc, Nat.add_mod_right] using h
    rw [wordsLe_four_cons, bytesLe_cons, wordBytes_le32, bytesLe_wordsLe bs hbs]
    rfl

/-- Settles O7: one inverse by induction on the words, the other by the recursion of `words_le`. -/
theorem bytesAndWordsAreInverse : Obligations.BytesAndWordsAreInverse :=
  ⟨wordsLe_bytesLe, bytesLe_wordsLe⟩

end Sys2Proof.Machine

/-! Input one byte at a time: what one byte does to a chunk and to a session, and the loops of `chunk_update` and `input_data` as
such bytes one after the other (20_memory.md R58; 41_chunk.md R124; 42_tree.md R142). -/

namespace Sys2Proof.Machine

/-! ### The chunk -/

theorem Chunk.makeRoom_eq_or (sflags : Word) (c : Chunk) :
    (c.csBlen.val < 64 ∧ c.makeRoom sflags = c) ∨ (c.csBlen.val = 64 ∧ c.makeRoom sflags = c.compressBlock sflags) := by
  have hblen := c.csBlen.isLt
  rcases Nat.lt_or_ge c.csBlen.val 64 with h | h
  · exact .inl ⟨h, c.makeRoom_of_lt sflags h⟩
  · exact .inr ⟨by omega, c.makeRoom_full sflags (by omega)⟩

@[simp] theorem Chunk.makeRoom_csCtr (sflags : Word) (c : Chunk) : (c.makeRoom sflags).csCtr = c.csCtr := by
  rcases c.makeRoom_eq_or sflags with ⟨-, h⟩ | ⟨-, h⟩ <;> simp [h]

/-- Making room moves 64 bytes from the buffer to the compressed blocks; only a chunk of 1024 bytes would wrap `CS_BCOMP`. -/
theorem Chunk.makeRoom_chunkLen (sflags : Word) (c : Chunk) (h : c.len < 1024) : (c.makeRoom sflags).len = c.len := by
  rcases c.makeRoom_eq_or sflags with ⟨-, hroom⟩ | ⟨hfull, hroom⟩
  · rw [hroom]
  · rw [hroom]
    unfold Chunk.len at h ⊢
    have hsucc : (c.csBcomp + 1).val = c.csBcomp.val + 1 := by rw [Fin.val_add]; omega
    simp only [Chunk.compressBlock_csBcomp, Chunk.compressBlock_csBlen, hsucc, Fin.val_zero]
    omega

/-- No room, no copy. -/
theorem Chunk.copyIn_of_room_zero (c : Chunk) (d : List Byte) (h : c.room d.length = 0) : c.copyIn d = c := by
  cases c
  simp [Chunk.copyIn, h]

theorem Chunk.eq_of_fields {c c' : Chunk} (hcv : c.csCv = c'.csCv) (hctr : c.csCtr = c'.csCtr) (hbuf : c.csBuf = c'.csBuf)
    (hblen : c.csBlen.val = c'.csBlen.val) (hbcomp : c.csBcomp = c'.csBcomp) : c = c' := by
  cases c
  cases c'
  simp_all [Fin.ext_iff]

/-- A byte that fits leaves one place less. -/
theorem Chunk.room_copyIn_singleton (c : Chunk) (b : Byte) (n : Nat) (h : c.csBlen.val < 64) :
    c.room (n + 1) = (c.copyIn [b]).room n + 1 := by
  simp only [Chunk.room, Chunk.copyIn_csBlen_val, List.length_singleton]
  omega

/-- The copy of a byte that fits and the copy of the bytes after it are one copy. -/
theorem Chunk.copyIn_singleton_copyIn (c : Chunk) (b : Byte) (d : List Byte) (h : c.csBlen.val < 64) :
    (c.copyIn [b]).copyIn d = c.copyIn (b :: d) := by
  have h1 : c.room 1 = 1 := by unfold Chunk.room; omega
  have hroom := c.room_copyIn_singleton b d.length h
  apply Chunk.eq_of_fields
  · simp
  · simp
  · have hbuf := memWrite_append c.csBuf c.csBlen.val [b] (d.take ((c.copyIn [b]).room d.length))
    simpa [hroom, h1] using hbuf
  · simp [hroom, h1]
    omega
  · simp

/-- A copy step leaves `chunk_update` the rest of its bytes. -/
theorem Chunk.copyIn_update (sflags : Word) (c : Chunk) (d : List Byte) :
    (c.copyIn d).update sflags (d.drop (c.room d.length)) = c.update sflags d := by
  rcases Nat.eq_zero_or_pos (c.room d.length) with h | h
  · rw [c.copyIn_of_room_zero d h, h, List.drop_zero]
  · have hpos : c.csBlen.val < 64 ∧ 0 < d.length := by unfold Chunk.room at h; omega
    rw [Chunk.update_pass sflags c d (List.length_pos_iff.mp hpos.2), c.makeRoom_of_lt sflags hpos.1]

/-- `chunk_update` takes its bytes one at a time. -/
theorem Chunk.update_cons (sflags : Word) (c : Chunk) (b : Byte) (d : List Byte) :
    c.update sflags (b :: d) = (c.absorbByte sflags b).update sflags d := by
  have hlt := c.makeRoom_csBlen sflags
  rw [Chunk.update_pass sflags c (b :: d) (List.cons_ne_nil b d), List.length_cons, Chunk.room_copyIn_singleton _ b _ hlt,
    List.drop_succ_cons, ← Chunk.copyIn_singleton_copyIn _ b d hlt]
  exact Chunk.copyIn_update sflags _ d

@[simp] theorem Chunk.update_singleton (sflags : Word) (c : Chunk) (b : Byte) :
    c.update sflags [b] = c.absorbByte sflags b := by
  rw [Chunk.update_cons, Chunk.update_nil]

theorem Chunk.update_append (sflags : Word) (c : Chunk) (d₁ d₂ : List Byte) :
    c.update sflags (d₁ ++ d₂) = (c.update sflags d₁).update sflags d₂ := by
  induction d₁ generalizing c with
  | nil => rfl
  | cons b d₁ ih => rw [List.cons_append, Chunk.update_cons, Chunk.update_cons, ih]

@[simp] theorem Chunk.absorbByte_csCtr (sflags : Word) (c : Chunk) (b : Byte) : (c.absorbByte sflags b).csCtr = c.csCtr := by
  simp [Chunk.absorbByte]

theorem Chunk.absorbByte_csBlen (sflags : Word) (c : Chunk) (b : Byte) :
    (c.absorbByte sflags b).csBlen.val = (c.makeRoom sflags).csBlen.val + 1 := by
  have h := c.makeRoom_csBlen sflags
  simp only [Chunk.absorbByte, Chunk.copyIn_csBlen_val, List.length_singleton, Chunk.room]
  omega

theorem Chunk.absorbByte_len (sflags : Word) (c : Chunk) (b : Byte) (h : c.len < 1024) :
    (c.absorbByte sflags b).len = c.len + 1 := by
  have hblen := c.absorbByte_csBlen sflags b
  have hlen := c.makeRoom_chunkLen sflags h
  unfold Chunk.len at hlen ⊢
  rw [hblen, Chunk.absorbByte, Chunk.copyIn_csBcomp]
  omega

theorem Chunk.update_len (sflags : Word) (c : Chunk) (d : List Byte) (h : c.len + d.length ≤ 1024) :
    (c.update sflags d).len = c.len + d.length := by
  induction d generalizing c with
  | nil => rfl
  | cons b d ih =>
    rw [List.length_cons] at h ⊢
    have hbyte := c.absorbByte_len sflags b (by omega)
    rw [Chunk.update_cons, ih _ (by omega), hbyte]
    omega

@[simp] theorem Chunk.update_csCtr (sflags : Word) (c : Chunk) (d : List Byte) : (c.update sflags d).csCtr = c.csCtr := by
  induction d generalizing c with
  | nil => rfl
  | cons b d ih => rw [Chunk.update_cons, ih, Chunk.absorbByte_csCtr]

/-! ### The session -/

theorem Session.chunkUpdate_cons (ses : Session) (b : Byte) (d : List Byte) :
    ses.chunkUpdate (b :: d) = (ses.chunkUpdate [b]).chunkUpdate d := by
  simp only [Session.chunkUpdate, Chunk.update_cons, Chunk.update_nil]

@[simp] theorem Session.chunkUpdate_nil (ses : Session) : ses.chunkUpdate [] = ses := rfl

theorem Session.absorbByte_ok {ses ses' : Session} {b : Byte} (h : ses.makeRoom = .ok ses') :
    ses.absorbByte b = .ok (ses'.chunkUpdate [b]) := by
  simp only [Session.absorbByte, h, Session.chunkUpdate, Chunk.update_singleton]

theorem Session.absorbByte_error {ses : Session} {b : Byte} {f : Fault} (h : ses.makeRoom = .error f) :
    ses.absorbByte b = .error f := by
  simp only [Session.absorbByte, h]

/-- Bytes that the chunk has room for go into it and leave `input_data` the rest. -/
theorem Session.chunkUpdate_inputData (ses : Session) (d : List Byte) :
    (ses.chunkUpdate (d.take (min (1024 - ses.chunk.len) d.length))).inputData
      (d.drop (min (1024 - ses.chunk.len) d.length)) = ses.inputData d := by
  rcases Nat.eq_zero_or_pos (min (1024 - ses.chunk.len) d.length) with h | h
  · rw [h, List.take_zero, List.drop_zero, Session.chunkUpdate_nil]
  · have hd : d ≠ [] := List.length_pos_iff.mp (by omega)
    exact (Session.inputData_pass ses ses d hd (ses.makeRoom_of_lt (by omega))).symm

/-- `input_data` takes its bytes one at a time. -/
theorem Session.inputData_cons (ses : Session) (b : Byte) (d : List Byte) :
    ses.inputData (b :: d) = ses.absorbByte b >>= fun ses' => ses'.inputData d := by
  rcases hroom : ses.makeRoom with f | ses'
  · rw [Session.absorbByte_error hroom]
    exact Session.inputData_error ses (b :: d) (List.cons_ne_nil b d) f hroom
  · have hlt := Session.makeRoom_len hroom
    have hlen : (ses'.chunkUpdate [b]).chunk.len = ses'.chunk.len + 1 := by
      rw [Session.chunkUpdate_chunk, Chunk.update_singleton, Chunk.absorbByte_len _ _ _ hlt]
    have htake : min (1024 - ses'.chunk.len) (d.length + 1)
        = min (1024 - (ses'.chunkUpdate [b]).chunk.len) d.length + 1 := by omega
    rw [Session.absorbByte_ok hroom, Session.inputData_pass ses ses' (b :: d) (List.cons_ne_nil b d) hroom, List.length_cons,
      htake, List.take_succ_cons, List.drop_succ_cons, Session.chunkUpdate_cons]
    exact Session.chunkUpdate_inputData (ses'.chunkUpdate [b]) d

/-- What every byte keeps, `input_data` keeps. -/
theorem Session.inputData_induction {P : Session → List Byte → Prop} {ses ses' : Session} {d : List Byte}
    (hbyte : ∀ (s s' : Session) (b : Byte) (rest : List Byte), P s (b :: rest) → s.absorbByte b = .ok s' → P s' rest)
    (hstart : P ses d) (h : ses.inputData d = .ok ses') : P ses' [] := by
  induction d generalizing ses with
  | nil =>
    rw [Session.inputData_nil] at h
    cases h
    exact hstart
  | cons b d ih =>
    rw [Session.inputData_cons] at h
    rcases hb : ses.absorbByte b with f | s
    · rw [hb] at h
      cases h
    · rw [hb] at h
      exact ih (hbyte ses s b d hstart hb) h

end Sys2Proof.Machine

/-! The merging of a completed chunk into the stack: the number of 1 bits of a counter, and what the loop of `add_chunk_cv` leaves
of the session and of the stack depth (10_state.md R33; 42_tree.md R144). -/

namespace Sys2Proof.Machine

/-! ### The number of 1 bits -/

theorem bitCount_succ_of_lt : ∀ (k n : Nat), n < 2 ^ k → bitCount (k + 1) n = bitCount k n
  | 0, n, h => by
    have h0 : n = 0 := by omega
    subst h0
    rfl
  | k + 1, n, h => by
    have ih := bitCount_succ_of_lt k (n / 2) (by omega)
    rw [bitCount, ih]
    rfl

/-- The bits of a 64-bit number are its lowest bit and those of its half. -/
theorem bitCount_half (n : Nat) (h : n < 2 ^ 64) : bitCount 64 n = n % 2 + bitCount 64 (n / 2) := by
  rw [bitCount_succ_of_lt 63 (n / 2) (by omega)]
  rfl

theorem bitCount_double (q : Nat) (h : q < 2 ^ 63) : bitCount 64 (2 * q) = bitCount 64 q := by
  rw [bitCount_half (2 * q) (by omega), show 2 * q % 2 = 0 by omega, show 2 * q / 2 = q by omega, Nat.zero_add]

theorem bitCount_double_add_one (q : Nat) (h : q < 2 ^ 63) : bitCount 64 (2 * q + 1) = bitCount 64 q + 1 := by
  rw [bitCount_half (2 * q + 1) (by omega), show (2 * q + 1) % 2 = 1 by omega, show (2 * q + 1) / 2 = q by omega, Nat.add_comm]

theorem bitCount_le (k j n : Nat) (h : n < 2 ^ j) : bitCount k n ≤ j := by
  induction k generalizing j n with
  | zero => exact Nat.zero_le j
  | succ k ih =>
    rw [bitCount]
    cases j with
    | zero =>
      have h0 := ih 0 (n / 2) (by omega)
      omega
    | succ j =>
      have hhalf := ih j (n / 2) (by omega)
      omega

/-- Above a set bit there are fewer set bits than in the whole number. -/
theorem bitCount_above_lt (b n : Nat) (hn : n < 2 ^ 64) (hb : n.testBit b = true) :
    bitCount 64 (n / 2 ^ (b + 1)) < bitCount 64 n := by
  induction b generalizing n with
  | zero =>
    have hodd : n % 2 = 1 := by simpa [Nat.testBit_zero] using hb
    rw [bitCount_half n hn, hodd, Nat.zero_add, Nat.pow_one]
    omega
  | succ b ih =>
    rw [Nat.testBit_succ] at hb
    have hhalf := ih (n / 2) (by omega) hb
    rw [Nat.div_div_eq_div_mul, ← Nat.pow_add_one'] at hhalf
    rw [bitCount_half n hn]
    omega

/-! ### The loop of `add_chunk_cv` -/

theorem toNat_ushiftRight_one (total : BitVec 64) : (total >>> 1).toNat = total.toNat / 2 := by
  rw [BitVec.toNat_ushiftRight, Nat.shiftRight_eq_div_pow, Nat.pow_one]

theorem toNat_add_one (x : BitVec 64) (h : x.toNat + 1 < 2 ^ 64) : (x + 1).toNat = x.toNat + 1 :=
  BitVec.toNat_add_of_lt h

/-- At an odd count the chaining value is pushed. -/
theorem Session.mergeLoop_odd (k : Nat) (ses : Session) (cv : CV) (total : BitVec 64) (h : total.toNat % 2 = 1) :
    Session.mergeLoop (k + 1) ses cv total = ses.push cv := by
  have hbit : total.getLsbD 0 = true := by simp [BitVec.getLsbD, Nat.testBit_zero, h]
  rw [Session.mergeLoop, if_pos hbit]

/-- At an even count the top entry is the left child of the next level. -/
theorem Session.mergeLoop_even (k : Nat) (ses : Session) (cv : CV) (total : BitVec 64) (h : total.toNat % 2 = 0) :
    Session.mergeLoop (k + 1) ses cv total = ses.pop >>= fun p =>
      Session.mergeLoop k p.2 (parentCv p.2.key p.2.sflags p.1 cv) (total >>> 1) := by
  have hbit : ¬ total.getLsbD 0 = true := by simp [BitVec.getLsbD, Nat.testBit_zero, h]
  rw [Session.mergeLoop, if_neg hbit]
  rcases ses.pop with f | ⟨left, ses'⟩ <;> rfl

/-- What a pop leaves, when it does not fault. -/
theorem Session.pop_cases {ses ses' : Session} {cv : CV} (h : ses.pop = .ok (cv, ses')) :
    ses'.stkDepth.val + 1 = ses.stkDepth.val ∧ ses.stk[ses'.stkDepth.val]? = some cv ∧
      ses'.key = ses.key ∧ ses'.sflags = ses.sflags ∧ ses'.chunk = ses.chunk ∧ ses'.stk = ses.stk := by
  rcases Nat.eq_zero_or_pos ses.stkDepth.val with h0 | hpos
  · rw [Session.pop_empty ses h0] at h
    cases h
  · obtain ⟨cv₁, ses₁, hpop, hkey, hflags, hchunk, hdepth, hstk, htop⟩ := Session.pop_spec ses hpos
    rw [hpop] at h
    injection h with h
    injection h with hcv hses
    subst hcv hses
    exact ⟨hdepth, htop, hkey, hflags, hchunk, hstk⟩

/-- What a pass of the merge loop did, when the loop did not fault. -/
theorem Session.mergeLoop_cases {k : Nat} {ses ses' : Session} {cv : CV} {total : BitVec 64}
    (h : Session.mergeLoop (k + 1) ses cv total = .ok ses') :
    (total.toNat % 2 = 1 ∧ ses.push cv = .ok ses') ∨
    (total.toNat % 2 = 0 ∧ ∃ left ses₁, ses.pop = .ok (left, ses₁) ∧
      Session.mergeLoop k ses₁ (parentCv ses₁.key ses₁.sflags left cv) (total >>> 1) = .ok ses') := by
  rcases Nat.mod_two_eq_zero_or_one total.toNat with heven | hodd
  · rw [Session.mergeLoop_even k ses cv total heven] at h
    rcases hpop : ses.pop with f | ⟨left, ses₁⟩
    · rw [hpop] at h
      cases h
    · rw [hpop] at h
      exact .inr ⟨heven, left, ses₁, rfl, h⟩
  · rw [Session.mergeLoop_odd k ses cv total hodd] at h
    exact .inl ⟨hodd, h⟩

/-- Merging writes the stack and its depth alone. -/
theorem Session.mergeLoop_frame {k : Nat} {ses ses' : Session} {cv : CV} {total : BitVec 64}
    (h : Session.mergeLoop k ses cv total = .ok ses') :
    ses'.key = ses.key ∧ ses'.sflags = ses.sflags ∧ ses'.chunk = ses.chunk := by
  induction k generalizing ses cv total with
  | zero => cases h
  | succ k ih =>
    rcases Session.mergeLoop_cases h with ⟨-, hpush⟩ | ⟨-, left, ses₁, hpop, hloop⟩
    · obtain ⟨-, rfl⟩ := Session.push_cases hpush
      exact ⟨rfl, rfl, rfl⟩
    · obtain ⟨-, -, hkey, hflags, hchunk, -⟩ := Session.pop_cases hpop
      obtain ⟨hkey', hflags', hchunk'⟩ := ih hloop
      exact ⟨hkey'.trans hkey, hflags'.trans hflags, hchunk'.trans hchunk⟩

/-- Merging takes the depth from the number of 1 bits of `total - 1` to that of `total` (10_state.md R33). -/
theorem Session.mergeLoop_depth {k : Nat} {ses ses' : Session} {cv : CV} {total : BitVec 64} (hpos : 0 < total.toNat)
    (hdepth : ses.stkDepth.val = bitCount 64 (total.toNat - 1)) (h : Session.mergeLoop k ses cv total = .ok ses') :
    ses'.stkDepth.val = bitCount 64 total.toNat := by
  induction k generalizing ses cv total with
  | zero => cases h
  | succ k ih =>
    have hlt := total.isLt
    rcases Session.mergeLoop_cases h with ⟨hodd, hpush⟩ | ⟨heven, left, ses₁, hpop, hloop⟩
    · obtain ⟨q, hq⟩ : ∃ q, total.toNat = 2 * q + 1 := ⟨total.toNat / 2, by omega⟩
      obtain ⟨-, rfl⟩ := Session.push_cases hpush
      rw [hq, Nat.add_sub_cancel, bitCount_double q (by omega)] at hdepth
      rw [hq, bitCount_double_add_one q (by omega), ← hdepth]
    · obtain ⟨q, hq⟩ : ∃ q, total.toNat = 2 * (q + 1) := ⟨total.toNat / 2 - 1, by omega⟩
      have hshift : (total >>> 1).toNat = q + 1 := by rw [toNat_ushiftRight_one]; omega
      obtain ⟨hdepth₁, -⟩ := Session.pop_cases hpop
      rw [hq, show 2 * (q + 1) - 1 = 2 * q + 1 by omega, bitCount_double_add_one q (by omega)] at hdepth
      have hmerged := ih (total := total >>> 1) (by omega) (by rw [hshift, Nat.add_sub_cancel]; omega) hloop
      rw [hmerged, hshift, hq, bitCount_double (q + 1) (by omega)]

/-- Merging does not fault below `2^54` chunks (42_tree.md R147). -/
theorem Session.mergeLoop_ok {k : Nat} {ses : Session} {cv : CV} {total : BitVec 64} (hpos : 0 < total.toNat)
    (hmax : total.toNat < 2 ^ 54) (hdepth : ses.stkDepth.val = bitCount 64 (total.toNat - 1)) (hk : ses.stkDepth.val < k) :
    ∃ ses', Session.mergeLoop k ses cv total = .ok ses' := by
  induction k generalizing ses cv total with
  | zero => exact absurd hk (Nat.not_lt_zero _)
  | succ k ih =>
    rcases Nat.mod_two_eq_zero_or_one total.toNat with heven | hodd
    · obtain ⟨q, hq⟩ : ∃ q, total.toNat = 2 * (q + 1) := ⟨total.toNat / 2 - 1, by omega⟩
      have hshift : (total >>> 1).toNat = q + 1 := by rw [toNat_ushiftRight_one]; omega
      rw [hq, show 2 * (q + 1) - 1 = 2 * q + 1 by omega, bitCount_double_add_one q (by omega)] at hdepth
      obtain ⟨left, ses₁, hpop, -, -, -, hdepth₁, -⟩ := Session.pop_spec ses (by omega)
      rw [Session.mergeLoop_even k ses cv total heven, hpop]
      exact ih (ses := ses₁) (by omega) (by omega) (by rw [hshift, Nat.add_sub_cancel]; omega) (by omega)
    · obtain ⟨q, hq⟩ : ∃ q, total.toNat = 2 * q + 1 := ⟨total.toNat / 2, by omega⟩
      have hle := bitCount_le 64 53 q (by omega)
      rw [hq, Nat.add_sub_cancel, bitCount_double q (by omega)] at hdepth
      rw [Session.mergeLoop_odd k ses cv total hodd]
      exact ⟨_, Session.push_ok ses cv (by omega)⟩

end Sys2Proof.Machine

/-! The hash tree on the stack: the chaining values of complete subtrees, the stack that holds them for the 1 bits of a counter, and
the absorption of one byte (10_state.md R25, R26, R33; 42_tree.md R143, R144, R148). -/

namespace Sys2Proof.Machine

/-! ### Complete subtrees of a message -/

/-- Any bound at least the number of chunks gives the same tree. -/
theorem treeOutput_enough (key : CV) (sflags : Word) (m : List Byte) : ∀ (k k' first count : Nat), count ≤ k → count ≤ k' →
    treeOutput key sflags m k first count = treeOutput key sflags m k' first count
  | 0, 0, _, _, _, _ => rfl
  | 0, _ + 1, _, count, h, _ => by rw [treeOutput, treeOutput, if_pos (by omega)]
  | _ + 1, 0, _, count, _, h' => by rw [treeOutput, treeOutput, if_pos (by omega)]
  | k + 1, k' + 1, first, count, h, h' => by
    by_cases hone : count ≤ 1
    · rw [treeOutput, treeOutput, if_pos hone, if_pos hone]
    · have hleft : 2 ^ (count - 1).log2 ≤ count - 1 := Nat.log2_self_le (by omega)
      have hpos := Nat.two_pow_pos (count - 1).log2
      rw [treeOutput, treeOutput, if_neg hone, if_neg hone]
      simp only
      rw [treeOutput_enough key sflags m k k' first _ (by omega) (by omega),
        treeOutput_enough key sflags m k k' _ (count - _) (by omega) (by omega)]

/-- The tree over `2^(level+1)` chunks is the parent of the trees over its halves. -/
theorem treeOutput_two_pow_succ (key : CV) (sflags : Word) (m : List Byte) (level first : Nat) :
    treeOutput key sflags m (2 ^ (level + 1)) first (2 ^ (level + 1)) = parentOutput key sflags
      (outputCv (treeOutput key sflags m (2 ^ level) first (2 ^ level)))
      (outputCv (treeOutput key sflags m (2 ^ level) (first + 2 ^ level) (2 ^ level))) := by
  have hpos := Nat.two_pow_pos level
  have hdouble : 2 ^ (level + 1) = 2 * 2 ^ level := Nat.pow_succ'
  obtain ⟨k, hk⟩ : ∃ k, 2 ^ (level + 1) = k + 1 := ⟨2 ^ (level + 1) - 1, by omega⟩
  have hlog : k.log2 = level := (Nat.log2_eq_iff (by omega)).mpr ⟨by omega, by omega⟩
  rw [hk, treeOutput, if_neg (by omega)]
  simp only [Nat.add_sub_cancel, hlog]
  rw [treeOutput_enough key sflags m k (2 ^ level) first _ (by omega) (by omega), show k + 1 - 2 ^ level = 2 ^ level by omega,
    treeOutput_enough key sflags m k (2 ^ level) _ _ (by omega) (by omega)]

/-- The chaining value of the complete subtree over the `2^level` chunks from chunk `first` on. -/
def subtreeCv (key : CV) (sflags : Word) (m : List Byte) (level first : Nat) : CV :=
  outputCv (treeOutput key sflags m (2 ^ level) first (2 ^ level))

theorem subtreeCv_zero (key : CV) (sflags : Word) (m : List Byte) (first : Nat) :
    subtreeCv key sflags m 0 first = outputCv (leafOutput key sflags m first) := by
  rw [subtreeCv, Nat.pow_zero, treeOutput, if_pos (Nat.le_refl 1)]

theorem subtreeCv_succ (key : CV) (sflags : Word) (m : List Byte) (level first : Nat) :
    subtreeCv key sflags m (level + 1) first =
      parentCv key sflags (subtreeCv key sflags m level first) (subtreeCv key sflags m level (first + 2 ^ level)) := by
  rw [subtreeCv, treeOutput_two_pow_succ]
  rfl

/-- Bytes after a chunk do not change it. -/
theorem messageChunk_append (m d : List Byte) (i : Nat) (h : 1024 * (i + 1) ≤ m.length) :
    messageChunk (m ++ d) i = messageChunk m i := by
  rw [messageChunk, messageChunk, List.drop_append_of_le_length (by omega),
    List.take_append_of_le_length (by rw [List.length_drop]; omega)]

/-- Bytes after a complete subtree do not change its chaining value. -/
theorem subtreeCv_append (key : CV) (sflags : Word) (m d : List Byte) (level first : Nat)
    (h : 1024 * (first + 2 ^ level) ≤ m.length) :
    subtreeCv key sflags (m ++ d) level first = subtreeCv key sflags m level first := by
  induction level generalizing first with
  | zero => rw [subtreeCv_zero, subtreeCv_zero, leafOutput, leafOutput, messageChunk_append m d first h]
  | succ level ih =>
    rw [Nat.pow_succ'] at h
    rw [subtreeCv_succ, subtreeCv_succ, ih first (by omega), ih (first + 2 ^ level) (by omega)]

/-! ### The stack that holds them -/

/-- For each 1 bit `b` of `n`, the stack holds, below the entries of the lower bits, the chaining value of the complete subtree of
height `level + b` that this bit stands for when `n` counts subtrees of height `level` (10_state.md R33). -/
def Session.HoldsSubtrees (ses : Session) (m : List Byte) (level n : Nat) : Prop :=
  ∀ b, n.testBit b = true → ses.stk[bitCount 64 (n / 2 ^ (b + 1))]? =
    some (subtreeCv ses.key ses.sflags m (level + b) (n / 2 ^ (b + 1) * 2 ^ (b + 1) * 2 ^ level))

/-- The lowest bit has its own entry; counted in pairs, the bits above it stand for the subtrees of the next height. -/
theorem Session.holdsSubtrees_iff (ses : Session) (m : List Byte) (level n : Nat) : ses.HoldsSubtrees m level n ↔
    (n % 2 = 1 → ses.stk[bitCount 64 (n / 2)]? = some (subtreeCv ses.key ses.sflags m level (n / 2 * 2 * 2 ^ level))) ∧
      ses.HoldsSubtrees m (level + 1) (n / 2) := by
  have hnext : ∀ b, n / 2 / 2 ^ (b + 1) = n / 2 ^ (b + 1 + 1) := fun b => by
    rw [Nat.div_div_eq_div_mul, ← Nat.pow_add_one']
  have hfirst : ∀ b x, x * 2 ^ (b + 1) * 2 ^ (level + 1) = x * 2 ^ (b + 1 + 1) * 2 ^ level := fun b x => by ring
  have hlevel : ∀ b, level + 1 + b = level + (b + 1) := fun b => by omega
  simp only [Session.HoldsSubtrees, hnext, hfirst, hlevel]
  rw [← Nat.and_forall_add_one]
  simp [Nat.testBit_zero, Nat.testBit_succ]

theorem Session.holdsSubtrees_double_iff (ses : Session) (m : List Byte) (level q : Nat) :
    ses.HoldsSubtrees m level (2 * q) ↔ ses.HoldsSubtrees m (level + 1) q := by
  rw [Session.holdsSubtrees_iff, show 2 * q / 2 = q by omega]
  exact and_iff_right (fun h => by omega)

theorem Session.holdsSubtrees_double_add_one_iff (ses : Session) (m : List Byte) (level q : Nat) :
    ses.HoldsSubtrees m level (2 * q + 1) ↔
      ses.stk[bitCount 64 q]? = some (subtreeCv ses.key ses.sflags m level (2 * q * 2 ^ level)) ∧
        ses.HoldsSubtrees m (level + 1) q := by
  rw [Session.holdsSubtrees_iff, show (2 * q + 1) / 2 = q by omega, Nat.mul_comm q 2]
  exact and_congr_left' (forall_prop_of_true (by omega))

/-- Only the key, the flags and the entries below the number of 1 bits matter. -/
theorem Session.HoldsSubtrees.congr {ses ses' : Session} {m : List Byte} {level n : Nat} (h : ses.HoldsSubtrees m level n)
    (hn : n < 2 ^ 64) (hkey : ses'.key = ses.key) (hflags : ses'.sflags = ses.sflags)
    (hstk : ∀ d, d < bitCount 64 n → ses'.stk[d]? = ses.stk[d]?) : ses'.HoldsSubtrees m level n := by
  intro b hb
  rw [hstk _ (bitCount_above_lt b n hn hb), hkey, hflags]
  exact h b hb

/-- The chunks that a 1 bit stands for are among those counted. -/
theorem above_add_two_pow_le (b n : Nat) (hb : n.testBit b = true) : n / 2 ^ (b + 1) * 2 ^ (b + 1) + 2 ^ b ≤ n := by
  have hodd : n / 2 ^ b % 2 = 1 := by simpa [Nat.testBit_eq_decide_div_mod_eq] using hb
  have hle : n / 2 ^ b * 2 ^ b ≤ n := Nat.div_mul_le_self n (2 ^ b)
  have hhalf : n / 2 ^ (b + 1) = n / 2 ^ b / 2 := by rw [Nat.div_div_eq_div_mul, ← Nat.pow_succ]
  calc n / 2 ^ (b + 1) * 2 ^ (b + 1) + 2 ^ b = (n / 2 ^ b / 2 * 2 + 1) * 2 ^ b := by rw [hhalf]; ring
    _ = n / 2 ^ b * 2 ^ b := by rw [show n / 2 ^ b / 2 * 2 + 1 = n / 2 ^ b by omega]
    _ ≤ n := hle

/-- Bytes after the counted chunks do not change what the stack holds. -/
theorem Session.HoldsSubtrees.append {ses : Session} {m : List Byte} {n : Nat} (h : ses.HoldsSubtrees m 0 n) (d : List Byte)
    (hm : 1024 * n ≤ m.length) : ses.HoldsSubtrees (m ++ d) 0 n := by
  intro b hb
  have hle := above_add_two_pow_le b n hb
  rw [subtreeCv_append _ _ _ _ _ _ (by rw [Nat.zero_add, Nat.pow_zero]; omega)]
  exact h b hb

/-- The subtrees of every 1 bit of `CS_CTR`, as `Session.Represents` states them. -/
theorem Session.holdsSubtrees_iff_entries (ses : Session) (m : List Byte) (ctr : BitVec 64) :
    ses.HoldsSubtrees m 0 ctr.toNat ↔ ∀ b : Nat, b < 64 → ctr.getLsbD b = true → ses.stk[popcount (ctr >>> (b + 1))]? =
      some (outputCv (treeOutput ses.key ses.sflags m (2 ^ b) ((ctr >>> (b + 1)) <<< (b + 1)).toNat (2 ^ b))) := by
  have hshift : ∀ b, (ctr >>> (b + 1)).toNat = ctr.toNat / 2 ^ (b + 1) := fun b => by
    rw [BitVec.toNat_ushiftRight, Nat.shiftRight_eq_div_pow]
  have hfirst : ∀ b, ((ctr >>> (b + 1)) <<< (b + 1)).toNat = ctr.toNat / 2 ^ (b + 1) * 2 ^ (b + 1) := fun b => by
    have hle := Nat.div_mul_le_self ctr.toNat (2 ^ (b + 1))
    rw [BitVec.toNat_shiftLeft, hshift, Nat.shiftLeft_eq, Nat.mod_eq_of_lt (Nat.lt_of_le_of_lt hle ctr.isLt)]
  simp only [Session.HoldsSubtrees, subtreeCv, popcount, hshift, hfirst, Nat.zero_add, Nat.pow_zero, Nat.mul_one]
  exact ⟨fun h b _ hb => h b hb, fun h b hb => h b (BitVec.lt_of_getLsbD hb) hb⟩

/-! ### The merge -/

/-- Merging the subtree after those of `total - 1` gives the subtrees of `total`, at every height (42_tree.md R144). -/
theorem Session.mergeLoop_holdsSubtrees {k : Nat} {ses ses' : Session} {total : BitVec 64} {m : List Byte} {level : Nat}
    (hpos : 0 < total.toNat) (hdepth : ses.stkDepth.val = bitCount 64 (total.toNat - 1))
    (hholds : ses.HoldsSubtrees m level (total.toNat - 1))
    (h : Session.mergeLoop k ses (subtreeCv ses.key ses.sflags m level ((total.toNat - 1) * 2 ^ level)) total = .ok ses') :
    ses'.HoldsSubtrees m level total.toNat := by
  induction k generalizing ses total level with
  | zero => cases h
  | succ k ih =>
    have hlt := total.isLt
    rcases Session.mergeLoop_cases h with ⟨hodd, hpush⟩ | ⟨heven, left, ses₁, hpop, hloop⟩
    · obtain ⟨q, hq⟩ : ∃ q, total.toNat = 2 * q + 1 := ⟨total.toNat / 2, by omega⟩
      rw [hq, Nat.add_sub_cancel] at hdepth hholds hpush
      rw [bitCount_double q (by omega)] at hdepth
      rw [Session.holdsSubtrees_double_iff] at hholds
      obtain ⟨hcap, rfl⟩ := Session.push_cases hpush
      rw [hq, Session.holdsSubtrees_double_add_one_iff]
      refine ⟨?_, hholds.congr (by omega) rfl rfl fun d hd => ?_⟩
      · rw [← hdepth]
        exact Vector.getElem?_set_self hcap
      · exact Vector.getElem?_set_ne hcap (by omega)
    · obtain ⟨q, hq⟩ : ∃ q, total.toNat = 2 * (q + 1) := ⟨total.toNat / 2 - 1, by omega⟩
      have hshift : (total >>> 1).toNat = q + 1 := by rw [toNat_ushiftRight_one]; omega
      obtain ⟨hdepth₁, htop, hkey, hflags, -, hstk⟩ := Session.pop_cases hpop
      rw [hq, show 2 * (q + 1) - 1 = 2 * q + 1 by omega] at hdepth hholds hloop
      rw [bitCount_double_add_one q (by omega)] at hdepth
      rw [Session.holdsSubtrees_double_add_one_iff] at hholds
      obtain ⟨hentry, hholds⟩ := hholds
      rw [show ses₁.stkDepth.val = bitCount 64 q by omega, hentry] at htop
      injection htop with hleft
      have hparent : parentCv ses₁.key ses₁.sflags left (subtreeCv ses.key ses.sflags m level ((2 * q + 1) * 2 ^ level)) =
          subtreeCv ses₁.key ses₁.sflags m (level + 1) (((total >>> 1).toNat - 1) * 2 ^ (level + 1)) := by
        rw [hshift, Nat.add_sub_cancel, hkey, hflags, subtreeCv_succ, ← hleft,
          show q * 2 ^ (level + 1) + 2 ^ level = (2 * q + 1) * 2 ^ level by ring,
          show q * 2 ^ (level + 1) = 2 * q * 2 ^ level by ring]
      have hholds₁ : ses₁.HoldsSubtrees m (level + 1) ((total >>> 1).toNat - 1) := by
        rw [hshift, Nat.add_sub_cancel]
        exact hholds.congr (by omega) hkey hflags fun d _ => by rw [hstk]
      rw [hparent] at hloop
      rw [hq, Session.holdsSubtrees_double_iff, ← hshift]
      exact ih (by omega) (by rw [hshift, Nat.add_sub_cancel]; omega) hholds₁ hloop

/-! ### One byte -/

/-- A session that has absorbed `m` and whose chunk takes one byte more. -/
structure Session.ReadyAfter (ses : Session) (m : List Byte) : Prop where
  complete : 1024 * ses.chunk.csCtr.toNat ≤ m.length
  room : m.length < 1024 * ses.chunk.csCtr.toNat + 1024
  chunk : ses.chunk = (Chunk.start ses.key ses.chunk.csCtr).update ses.sflags (m.drop (1024 * ses.chunk.csCtr.toNat))
  depth : ses.stkDepth.val = popcount ses.chunk.csCtr
  subtrees : ses.HoldsSubtrees m 0 ses.chunk.csCtr.toNat

/-- The bytes of the current chunk are those after the completed chunks. -/
theorem Session.Represents.chunk_len {ses : Session} {m : List Byte} (h : ses.Represents m) :
    ses.chunk.len = m.length - 1024 * ses.chunk.csCtr.toNat := by
  have hroom := h.room
  have hlen := Chunk.update_len ses.sflags (Chunk.start ses.key ses.chunk.csCtr) (m.drop (1024 * ses.chunk.csCtr.toNat))
    (by rw [Chunk.start_len, List.length_drop]; omega)
  rw [← h.chunk, Chunk.start_len, Nat.zero_add, List.length_drop] at hlen
  exact hlen

/-- A full current chunk is the leaf of its place in the message. -/
theorem Session.Represents.chunkOutput_eq {ses : Session} {m : List Byte} (h : ses.Represents m) :
    ses.chunkOutput = leafOutput ses.key ses.sflags m ses.chunk.csCtr.toNat := by
  have hroom := h.room
  rw [leafOutput, messageChunk, List.take_of_length_le (by rw [List.length_drop]; omega), BitVec.ofNat_toNat,
    BitVec.setWidth_eq, ← h.chunk, Session.chunkOutput]

/-- The completion of a full chunk merges its leaf into the stack and leaves the session ready for one byte more. -/
theorem Session.Represents.completeChunk {ses : Session} {m : List Byte} (h : ses.Represents m) (hm : m.length < 2 ^ 64)
    (hfull : m.length = 1024 * ses.chunk.csCtr.toNat + 1024) :
    ∃ ses', ses.completeChunk = .ok ses' ∧ ses'.ReadyAfter m ∧ ses'.key = ses.key ∧ ses'.sflags = ses.sflags := by
  have htotal : (ses.chunk.csCtr + 1).toNat = ses.chunk.csCtr.toNat + 1 :=
    toNat_add_one _ (by omega)
  have hpos : 0 < (ses.chunk.csCtr + 1).toNat := by omega
  have hpred : (ses.chunk.csCtr + 1).toNat - 1 = ses.chunk.csCtr.toNat := by omega
  have hdepth : ses.stkDepth.val = bitCount 64 ((ses.chunk.csCtr + 1).toNat - 1) := by rw [hpred]; exact h.depth
  have hholds : ses.HoldsSubtrees m 0 ((ses.chunk.csCtr + 1).toNat - 1) := by
    rw [hpred]
    exact (ses.holdsSubtrees_iff_entries m ses.chunk.csCtr).mpr h.entries
  have hleaf : outputCv ses.chunkOutput = subtreeCv ses.key ses.sflags m 0 (((ses.chunk.csCtr + 1).toNat - 1) * 2 ^ 0) := by
    rw [hpred, Nat.pow_zero, Nat.mul_one, subtreeCv_zero, h.chunkOutput_eq]
  obtain ⟨ses₁, hmerge⟩ := Session.mergeLoop_ok (cv := outputCv ses.chunkOutput) hpos (by omega) hdepth (Nat.lt_succ_self _)
  have hdepth₁ := Session.mergeLoop_depth hpos hdepth hmerge
  obtain ⟨hkey, hflags, -⟩ := Session.mergeLoop_frame hmerge
  refine ⟨ses₁.chunkStart (ses.chunk.csCtr + 1), ?_, ?_, hkey, hflags⟩
  · rw [Session.completeChunk, Session.addChunkCv, hmerge]
  rw [hleaf] at hmerge
  have hholds₁ := Session.mergeLoop_holdsSubtrees hpos hdepth hholds hmerge
  constructor <;> simp only [Session.chunkStart_chunk, Session.chunkStart_key, Session.chunkStart_sflags, Chunk.start_csCtr]
  case complete => omega
  case room => omega
  case chunk => rw [List.drop_eq_nil_of_le (by omega), Chunk.update_nil]
  case depth => exact hdepth₁
  case subtrees => exact hholds₁.congr (BitVec.isLt _) rfl rfl fun _ _ => rfl

/-- Making room in a session that holds `m` leaves it ready for one byte more (42_tree.md R143). -/
theorem Session.Represents.makeRoom {ses : Session} {m : List Byte} (h : ses.Represents m) (hm : m.length < 2 ^ 64) :
    ∃ ses', ses.makeRoom = .ok ses' ∧ ses'.ReadyAfter m ∧ ses'.key = ses.key ∧ ses'.sflags = ses.sflags := by
  have hlen := h.chunk_len
  by_cases hfull : ses.chunk.len = 1024
  · rw [Session.makeRoom, if_pos hfull]
    exact h.completeChunk hm (by omega)
  · have hlt : ses.chunk.len < 1024 := Nat.lt_of_le_of_ne ses.chunk.len_le hfull
    have hcomplete := h.complete
    exact ⟨ses, ses.makeRoom_of_lt hlt,
      { complete := hcomplete, room := by omega, chunk := h.chunk, depth := h.depth
        subtrees := (ses.holdsSubtrees_iff_entries m ses.chunk.csCtr).mpr h.entries }, rfl, rfl⟩

/-- A byte given to a session ready after `m` leaves one that holds `m` and the byte. -/
theorem Session.ReadyAfter.represents_chunkUpdate {ses : Session} {m : List Byte} (h : ses.ReadyAfter m) (hm : m.length < 2 ^ 64)
    (b : Byte) : (ses.chunkUpdate [b]).Represents (m ++ [b]) := by
  have hcomplete := h.complete
  have hroom := h.room
  have hctr : (ses.chunkUpdate [b]).chunk.csCtr = ses.chunk.csCtr := Chunk.update_csCtr _ _ _
  have hlength : (m ++ [b]).length = m.length + 1 := List.length_append
  constructor <;> simp only [hctr, hlength]
  case bound => exact hm
  case complete => omega
  case pending =>
    intro _
    omega
  case room => omega
  case chunk =>
    rw [List.drop_append_of_le_length hcomplete, Chunk.update_append]
    exact congrArg (fun c => Chunk.update ses.sflags c [b]) h.chunk
  case depth => exact h.depth
  case entries =>
    exact (Session.holdsSubtrees_iff_entries _ _ _).mp
      ((h.subtrees.append [b] hcomplete).congr (BitVec.isLt _) rfl rfl fun _ _ => rfl)

/-- Absorbing `d` takes a session that holds `m` to one that holds `m ++ d`, byte by byte. -/
theorem Session.Represents.inputData {ses : Session} {m : List Byte} (h : ses.Represents m) (d : List Byte)
    (hmax : m.length + d.length ≤ 2 ^ 64) :
    ∃ ses', ses.inputData d = .ok ses' ∧ ses'.Represents (m ++ d) ∧ ses'.key = ses.key ∧ ses'.sflags = ses.sflags := by
  induction d generalizing ses m with
  | nil => exact ⟨ses, ses.inputData_nil, by rwa [List.append_nil], rfl, rfl⟩
  | cons b d ih =>
    rw [List.length_cons] at hmax
    obtain ⟨ses₁, hroom, hready, hkey₁, hflags₁⟩ := h.makeRoom (by omega)
    obtain ⟨ses', hloop, hrep, hkey, hflags⟩ := ih (hready.represents_chunkUpdate (by omega) b)
      (by rw [List.length_append, List.length_singleton]; omega)
    refine ⟨ses', ?_, ?_, hkey.trans hkey₁, hflags.trans hflags₁⟩
    · rw [Session.inputData_cons, Session.absorbByte_ok hroom]
      exact hloop
    · rwa [List.append_assoc] at hrep

/-- Settles O40, by induction on the bytes: making room merges a full chunk into the stack, which keeps the subtrees of the 1 bits
of the counter, and the byte goes into the chunk. -/
theorem absorbingKeepsTheTreeOnTheStack : Obligations.AbsorbingKeepsTheTreeOnTheStack :=
  fun _ _ d h hmax => h.inputData d hmax

end Sys2Proof.Machine

/-! The invariant of the machine: legal sessions byte by byte, the words a decoded command takes, and the invariant at reset, over a
step and over a delivery of words (10_state.md R24, R27, R30, R33, R34; 42_tree.md R143). -/

namespace Sys2Proof.Machine

/-! ### What the input loop leaves -/

theorem Session.makeRoom_frame {ses ses' : Session} (h : ses.makeRoom = .ok ses') :
    ses'.key = ses.key ∧ ses'.sflags = ses.sflags := by
  rcases Session.makeRoom_cases h with ⟨-, rfl⟩ | ⟨-, merged, hmerge, rfl⟩
  · exact ⟨rfl, rfl⟩
  · obtain ⟨hkey, hflags, -⟩ := Session.mergeLoop_frame hmerge
    exact ⟨hkey, hflags⟩

/-- What a byte leaves, when it does not fault. -/
theorem Session.absorbByte_cases {ses ses' : Session} {b : Byte} (h : ses.absorbByte b = .ok ses') :
    ∃ ses₁, ses.makeRoom = .ok ses₁ ∧ ses' = ses₁.chunkUpdate [b] := by
  rcases hroom : ses.makeRoom with f | ses₁
  · rw [Session.absorbByte_error hroom] at h
    cases h
  · rw [Session.absorbByte_ok hroom] at h
    injection h with h
    exact ⟨ses₁, rfl, h.symm⟩

/-- Absorbing keeps the key and the flags (10_state.md R23, R24). -/
theorem Session.inputData_frame {ses ses' : Session} {d : List Byte} (h : ses.inputData d = .ok ses') :
    ses'.key = ses.key ∧ ses'.sflags = ses.sflags := by
  refine Session.inputData_induction (P := fun s _ => s.key = ses.key ∧ s.sflags = ses.sflags) ?_ ⟨rfl, rfl⟩ h
  rintro s s' b - ⟨hkey, hflags⟩ hbyte
  obtain ⟨s₁, hroom, rfl⟩ := Session.absorbByte_cases hbyte
  obtain ⟨hkey₁, hflags₁⟩ := Session.makeRoom_frame hroom
  exact ⟨hkey₁.trans hkey, hflags₁.trans hflags⟩

/-! ### The block buffer behind its bytes -/

/-- Bytes `CS_BUF[CS_BLEN..63]` are zero (10_state.md R27). -/
def Chunk.ZeroTail (c : Chunk) : Prop := ∀ i : Fin 64, c.csBlen.val ≤ i.val → c.csBuf[i] = 0

theorem Chunk.zeroTail_start (key : CV) (ctr : BitVec 64) : (Chunk.start key ctr).ZeroTail := fun i _ => by simp

theorem Chunk.ZeroTail.absorbByte {c : Chunk} (h : c.ZeroTail) (sflags : Word) (b : Byte) : (c.absorbByte sflags b).ZeroTail := by
  have hroom : (c.makeRoom sflags).ZeroTail := by
    rcases c.makeRoom_eq_or sflags with ⟨-, hroom⟩ | ⟨-, hroom⟩
    · rwa [hroom]
    · rw [hroom]
      exact fun i _ => by simp
  intro i hi
  rw [Chunk.absorbByte_csBlen] at hi
  have hout : ¬ (i.val < (c.makeRoom sflags).csBlen.val + 1) := by omega
  have hwrite := memWrite_getElem (c.makeRoom sflags).csBuf (c.makeRoom sflags).csBlen.val
    ([b].take ((c.makeRoom sflags).room 1)) i.val i.isLt
  rw [if_neg (by rw [List.length_take, List.length_singleton]; omega)] at hwrite
  exact hwrite.trans (hroom i (by omega))

/-! ### Legal sessions -/

/-- A session just constructed is legal. -/
theorem Session.legal_init (ses : Session) (k : CV) (f : Word)
    (hf : f = 0 ∨ f = flagKeyedHash ∨ f = flagDeriveKeyMaterial) : (ses.init k f).Legal where
  flags := hf
  depth := by simp; rfl
  bound := by simp [Session.totalAbsorbed]
  pending := fun h => absurd rfl h
  lazyBlock := fun h => absurd h (Nat.lt_irrefl 0)
  zeroTail := Chunk.zeroTail_start k 0

/-- Making room in a legal session keeps its flags and its number of bytes, and the depth of the stack with the counter. -/
theorem Session.Legal.makeRoom {ses ses' : Session} (h : ses.Legal) (hlt : ses.totalAbsorbed < 2 ^ 64)
    (hroom : ses.makeRoom = .ok ses') :
    ses'.totalAbsorbed = ses.totalAbsorbed ∧ ses'.stkDepth.val = popcount ses'.chunk.csCtr ∧ ses'.chunk.ZeroTail := by
  rcases Session.makeRoom_cases hroom with ⟨-, rfl⟩ | ⟨hfull, merged, hmerge, rfl⟩
  · exact ⟨rfl, h.depth, h.zeroTail⟩
  · unfold Session.totalAbsorbed at hlt ⊢
    have htotal : (ses.chunk.csCtr + 1).toNat = ses.chunk.csCtr.toNat + 1 :=
      toNat_add_one _ (by omega)
    have hdepth : ses.stkDepth.val = bitCount 64 ((ses.chunk.csCtr + 1).toNat - 1) := by
      rw [htotal, Nat.add_sub_cancel]
      exact h.depth
    have hdepth' := Session.mergeLoop_depth (by omega) hdepth hmerge
    refine ⟨?_, hdepth', Chunk.zeroTail_start _ _⟩
    simp only [Session.chunkStart_chunk, Chunk.start_csCtr, Chunk.start_len, htotal, hfull]
    omega

/-- A byte keeps a session legal and counts as one. -/
theorem Session.Legal.absorbByte {ses ses' : Session} {b : Byte} (h : ses.Legal) (hlt : ses.totalAbsorbed < 2 ^ 64)
    (hbyte : ses.absorbByte b = .ok ses') : ses'.Legal ∧ ses'.totalAbsorbed = ses.totalAbsorbed + 1 := by
  obtain ⟨ses₁, hroom, rfl⟩ := Session.absorbByte_cases hbyte
  obtain ⟨-, hflags⟩ := Session.makeRoom_frame hroom
  obtain ⟨htotal, hdepth, htail⟩ := h.makeRoom hlt hroom
  have hlen := Chunk.absorbByte_len ses₁.sflags ses₁.chunk b (Session.makeRoom_len hroom)
  have hblen := Chunk.absorbByte_csBlen ses₁.sflags ses₁.chunk b
  have hchunk : (ses₁.chunkUpdate [b]).chunk = ses₁.chunk.absorbByte ses₁.sflags b := Chunk.update_singleton _ _ b
  have hsum : (ses₁.chunkUpdate [b]).totalAbsorbed = ses.totalAbsorbed + 1 := by
    simp only [Session.totalAbsorbed, hchunk, Chunk.absorbByte_csCtr, hlen] at htotal ⊢
    omega
  exact ⟨{
    flags := by rw [Session.chunkUpdate_sflags, hflags]; exact h.flags
    depth := by rw [hchunk, Chunk.absorbByte_csCtr]; exact hdepth
    bound := by rw [hsum]; exact hlt
    pending := fun _ => by rw [hchunk]; omega
    lazyBlock := fun _ => by rw [hchunk]; omega
    zeroTail := by rw [hchunk]; exact htail.absorbByte ses₁.sflags b }, hsum⟩

/-- Absorbing keeps a session legal, within `MAX_INPUT` (42_tree.md R141). -/
theorem Session.Legal.inputData {ses ses' : Session} {d : List Byte} (h : ses.Legal)
    (hmax : ses.totalAbsorbed + d.length ≤ 2 ^ 64) (hdata : ses.inputData d = .ok ses') : ses'.Legal := by
  refine (Session.inputData_induction (P := fun s rest => s.Legal ∧ s.totalAbsorbed + rest.length ≤ 2 ^ 64) ?_ ⟨h, hmax⟩ hdata).1
  rintro s s' b rest ⟨hlegal, hmax⟩ hbyte
  rw [List.length_cons] at hmax
  obtain ⟨hlegal', hcount⟩ := hlegal.absorbByte (by omega) hbyte
  exact ⟨hlegal', by omega⟩

/-- A payload has at most `LEN` bytes. -/
theorem payloadBytes_length_le (len : BitVec 64) (pw : List Word) : (payloadBytes len pw).length ≤ len.toNat :=
  List.length_take_le _ _

/-- After every command a session that exists is legal. -/
theorem exec_keeps_legal {i : Instr} {s t : State} (h : exec i s = .next t) (hs : s.engineValid = true → s.session.Legal)
    (ht : t.engineValid = true) : t.session.Legal := by
  rcases exec_cases h with ⟨c, -, rfl, -⟩ | ⟨-, rfl⟩ | ⟨len, pw, -, -, rfl⟩ | ⟨len, pw, context, -, -, rfl⟩ |
    ⟨len, pw, ses, -, hv, hmax, hdata, rfl⟩ | ⟨len, -, hv, rfl⟩ | ⟨-, hv, rfl⟩
  · exact hs ht
  · exact Session.legal_init _ _ _ (.inl rfl)
  · exact Session.legal_init _ _ _ (.inr (.inl rfl))
  · exact Session.legal_init _ _ _ (.inr (.inr rfl))
  · have hlen := payloadBytes_length_le len pw
    exact (hs hv).inputData (by omega) hdata
  · exact hs hv
  · exact Session.legal_init _ _ _ (hs hv).flags

/-! ### The words a command takes -/

theorem decodePayload_length {mk : BitVec 64 → List Word → Instr} {ws rest : List Word} {i : Instr}
    (hmk : ∀ len pw, (mk len pw).nWords = 3 + (len.toNat + 3) / 4) (h : decodePayload mk ws = .ok (i, rest)) :
    ws.length + 1 = i.nWords + rest.length := by
  match ws, h with
  | [], h | [_], h => cases h
  | lo :: hi :: ws, h =>
    change (if ws.length < payloadWords (lenOf lo hi) then _ else _) = _ at h
    by_cases hshort : ws.length < payloadWords (lenOf lo hi)
    · rw [if_pos hshort] at h
      cases h
    · rw [if_neg hshort] at h
      cases h
      rw [payloadWords] at hshort ⊢
      rw [hmk, List.length_drop, List.length_cons, List.length_cons]
      omega

/-- A decoded command has taken its number of words (30_encoding.md R76). -/
theorem decode_length {ws rest : List Word} {i : Instr} (h : decode ws = .ok (i, rest)) :
    ws.length = i.nWords + rest.length := by
  unfold decode at h
  split at h
  · cases h
  · rw [List.length_cons]
    split at h
    · cases h
    · cases h
      rw [Instr.nWords_initHash]
      omega
    · exact decodePayload_length Instr.nWords_initKeyedHash h
    · exact decodePayload_length Instr.nWords_initKdf h
    · exact decodePayload_length Instr.nWords_absorb h
    · split at h
      · cases h
        rw [Instr.nWords_squeeze, List.length_cons, List.length_cons]
        omega
      · cases h
    · cases h
      rw [Instr.nWords_reset]
      omega

theorem decode_nil : decode [] = .error .incomplete := rfl

/-! ### Commands and `CP` -/

/-- The four ways a command can end: with an error, a session constructed, the session written, or words emitted. -/
theorem exec_shape {i : Instr} {s t : State} (h : exec i s = .next t) :
    (∃ c, c ≠ .ok ∧ t = s.raise c i.nWords) ∨
    (∃ ses, t = (s.startSession ses).finishOk i.nWords) ∨
    (∃ ses, s.engineValid = true ∧ t = (s.withSession ses).finishOk i.nWords) ∨
    (∃ len ws, i = .squeeze len ∧ s.engineValid = true ∧ t = (s.emit ws).finishOk i.nWords) := by
  rcases exec_cases h with ⟨c, hc, ht, -⟩ | ⟨-, ht⟩ | ⟨len, pw, -, -, ht⟩ | ⟨len, pw, context, -, -, ht⟩ |
    ⟨len, pw, ses, -, hv, -, -, ht⟩ | ⟨len, hi, hv, ht⟩ | ⟨-, hv, ht⟩
  · exact .inl ⟨c, hc, ht⟩
  · exact .inr (.inl ⟨_, ht⟩)
  · exact .inr (.inl ⟨_, ht⟩)
  · exact .inr (.inl ⟨_, ht⟩)
  · exact .inr (.inr (.inl ⟨_, hv, ht⟩))
  · exact .inr (.inr (.inr ⟨len, _, hi, hv, ht⟩))
  · exact .inr (.inr (.inl ⟨_, hv, ht⟩))

/-- Every command advances `CP` by its number of words and writes no stream (10_state.md R40). -/
theorem exec_cp_stream {i : Instr} {s t : State} (h : exec i s = .next t) : t.cp = s.cp + i.nWords ∧ t.stream = s.stream := by
  rcases exec_shape h with ⟨c, -, rfl⟩ | ⟨ses, rfl⟩ | ⟨ses, -, rfl⟩ | ⟨len, ws, -, -, rfl⟩ <;> exact ⟨rfl, rfl⟩

/-- A command that ends with an error has set `ERR_SEEN`; any other has left it (60_exceptions.md R203, R204). -/
theorem exec_sticky {i : Instr} {s t : State} (h : exec i s = .next t) :
    (t.result ≠ .ok ∧ t.errSeen = true) ∨ (t.result = .ok ∧ t.errSeen = s.errSeen) := by
  rcases exec_shape h with ⟨c, hc, rfl⟩ | ⟨ses, rfl⟩ | ⟨ses, -, rfl⟩ | ⟨len, ws, -, -, rfl⟩
  · exact .inl ⟨hc, rfl⟩
  all_goals exact .inr ⟨rfl, rfl⟩

/-- A command appends to `OUT`, and only a `SQUEEZE` of a session appends words (10_state.md R41). -/
theorem exec_out {i : Instr} {s t : State} (h : exec i s = .next t) :
    ∃ ws, t.out = s.out ++ ws ∧ (ws ≠ [] → s.engineValid = true ∧ ∃ len, i = .squeeze len) := by
  rcases exec_shape h with ⟨c, -, rfl⟩ | ⟨ses, rfl⟩ | ⟨ses, -, rfl⟩ | ⟨len, ws, hi, hv, rfl⟩
  case inr.inr.inr => exact ⟨ws, rfl, fun _ => ⟨hv, len, hi⟩⟩
  all_goals exact ⟨[], by simp, fun hne => absurd rfl hne⟩

/-- No command takes a session away (10_state.md R22). -/
theorem exec_engineValid_mono {i : Instr} {s t : State} (h : exec i s = .next t) (hs : s.engineValid = true) :
    t.engineValid = true := by
  rcases exec_shape h with ⟨c, -, rfl⟩ | ⟨ses, rfl⟩ | ⟨ses, -, rfl⟩ | ⟨len, ws, -, -, rfl⟩ <;> simp [hs]

/-! ### The invariant -/

theorem State.inv_hardReset (s : State) (junk : Session) : (s.hardReset junk).Inv where
  cpBound := Nat.le_refl 0
  session := fun h => nomatch h
  sticky := fun h => absurd rfl h
  silent := fun _ => rfl

theorem State.Inv.receive {s : State} (h : s.Inv) (ws : List Word) : (s.receive ws).Inv where
  cpBound := by
    have hcp := h.cpBound
    rw [State.receive_cp, State.receive_stream, List.length_append]
    omega
  session := h.session
  sticky := h.sticky
  silent := h.silent

/-- A command whose words have been received keeps the invariant. -/
theorem State.Inv.exec {s t : State} {i : Instr} (h : s.Inv) (hwords : s.cp + i.nWords ≤ s.stream.length)
    (hexec : exec i s = .next t) : t.Inv := by
  obtain ⟨hcp, hstream⟩ := exec_cp_stream hexec
  constructor
  case cpBound => rwa [hcp, hstream]
  case session => exact exec_keeps_legal hexec h.session
  case sticky =>
    intro hres
    rcases exec_sticky hexec with ⟨-, herr⟩ | ⟨hok, -⟩
    · exact herr
    · exact absurd hok hres
  case silent =>
    intro hv
    have hvs : ¬ s.engineValid = true := fun hs => by simp [exec_engineValid_mono hexec hs] at hv
    obtain ⟨ws, hout, hsqueeze⟩ := exec_out hexec
    have hws : ws = [] := by_contra fun hne => hvs (hsqueeze hne).1
    rw [hout, hws, List.append_nil]
    exact h.silent (Bool.eq_false_iff.mpr hvs)

theorem State.fetch_length (s : State) : s.fetch.length = s.stream.length - s.cp := List.length_drop

/-- An illegal header keeps the invariant. -/
theorem State.Inv.illegalCommand {s : State} (h : s.Inv) (hword : s.cp + 1 ≤ s.stream.length) : s.illegalCommand.Inv where
  cpBound := hword
  session := h.session
  sticky := fun _ => rfl
  silent := h.silent

theorem State.Inv.step {s t : State} (h : s.Inv) (hstep : step s = .next t) : t.Inv := by
  have hcp := h.cpBound
  have hfetch := s.fetch_length
  rcases step_cases hstep with ⟨i, rest, hdecode, hexec⟩ | ⟨hillegal, rfl⟩ | ⟨-, rfl⟩
  · have hwords := decode_length hdecode
    exact h.exec (by omega) hexec
  · have hne : s.fetch ≠ [] := fun hnil => by rw [hnil, decode_nil] at hillegal; cases hillegal
    have hpos := List.length_pos_iff.mpr hne
    exact h.illegalCommand (by omega)
  · exact h

/-- Settles O51: without a session nothing is asked of the session registers. -/
theorem invariantHoldsAtReset : Obligations.InvariantHoldsAtReset :=
  ⟨State.reset.inv_hardReset State.reset.session, State.inv_hardReset⟩

/-- Settles O52: a step executes a command whose words have been received, or an illegal header, or holds. -/
theorem everyStepKeepsTheInvariant : Obligations.EveryStepKeepsTheInvariant :=
  ⟨fun _ _ h hstep => h.step hstep, fun _ ws h => h.receive ws⟩

/-! ### What commands and steps write -/

/-- Settles O11: every way a command can end advances `CP` by `n_words`. -/
theorem everyCommandAdvancesCpByItsWords : Obligations.EveryCommandAdvancesCpByItsWords := by
  intro i s t h
  obtain ⟨hcp, hstream⟩ := exec_cp_stream h
  refine ⟨hstream, ?_⟩
  rw [hcp]
  cases i <;> simp

/-- Settles O15: a command with an error, and an illegal header, set the bit; all else leaves it. -/
theorem errSeenIsSticky : Obligations.ErrSeenIsSticky := by
  intro s t hstep
  rcases step_cases hstep with ⟨i, rest, -, hexec⟩ | ⟨-, rfl⟩ | ⟨-, rfl⟩
  · rcases exec_sticky hexec with ⟨hres, herr⟩ | ⟨-, herr⟩
    · exact ⟨fun _ => herr, fun _ => .inr hres⟩
    · rw [herr]
      exact ⟨id, .inl⟩
  · exact ⟨fun _ => rfl, fun _ => .inr ResultCode.noConfusion⟩
  · exact ⟨id, .inl⟩

/-- Settles O17: a step that executes no command emits nothing. -/
theorem outOnlyGrowsAndOnlyBySqueeze : Obligations.OutOnlyGrowsAndOnlyBySqueeze := by
  intro s t hstep
  rcases step_cases hstep with ⟨i, rest, hdecode, hexec⟩ | ⟨-, rfl⟩ | ⟨-, rfl⟩
  · obtain ⟨ws, hout, hsqueeze⟩ := exec_out hexec
    refine ⟨ws, hout, fun hne => ?_⟩
    obtain ⟨-, len, rfl⟩ := hsqueeze hne
    exact ⟨len, rest, hdecode⟩
  · exact ⟨[], by simp, fun hne => absurd rfl hne⟩
  · exact ⟨[], by simp, fun hne => absurd rfl hne⟩

/-- Settles O16, by the cases of a command. -/
theorem onlyConstructionWritesEngineValidKeyAndFlags : Obligations.OnlyConstructionWritesEngineValidKeyAndFlags := by
  intro i s t h
  rcases exec_cases h with ⟨c, hc, rfl, -⟩ | ⟨rfl, rfl⟩ | ⟨len, pw, rfl, -, rfl⟩ | ⟨len, pw, context, rfl, -, rfl⟩ |
    ⟨len, pw, ses, rfl, hv, -, hdata, rfl⟩ | ⟨len, rfl, hv, rfl⟩ | ⟨rfl, hv, rfl⟩
  · simp [hc]
  · simp
  · simp
  · simp
  · simp [hv, Session.inputData_frame hdata]
  · simp [hv]
  · simp [hv]

end Sys2Proof.Machine

/-! What nothing reads: sessions that agree on the live registers stay so under every operation and fault alike, and so do the states
of a step and of a run (10_state.md R22, R31, R43). -/

namespace Sys2Proof.Machine

/-! ### Sessions -/

/-- Live-equal sessions are one session up to its stack, whose valid entries agree. -/
theorem Session.liveEq_iff (a b : Session) : a.LiveEq b ↔
    ∃ stk : Vector CV 54, b = { a with stk := stk } ∧ ∀ (d : Nat) (h : d < 54), d < a.stkDepth.val → a.stk[d] = stk[d] := by
  constructor
  · rcases a with ⟨key, sflags, chunk, stk, depth⟩
    rcases b with ⟨key', sflags', chunk', stk', depth'⟩
    rintro ⟨rfl, rfl, rfl, rfl, hstk⟩
    exact ⟨stk', rfl, fun d h hd => hstk ⟨d, h⟩ hd⟩
  · rintro ⟨stk, rfl, hstk⟩
    exact ⟨rfl, rfl, rfl, rfl, fun d hd => hstk d.val d.isLt hd⟩

/-- Two outcomes on sessions: live-equal sessions or the same fault. -/
def SessionsAgree : Except Fault Session → Except Fault Session → Prop
  | .ok a, .ok b => a.LiveEq b
  | .error f, .error g => f = g
  | _, _ => False

theorem SessionsAgree.bind {x y : Except Fault Session} {f g : Session → Except Fault Session} (h : SessionsAgree x y)
    (hfg : ∀ a b, a.LiveEq b → SessionsAgree (f a) (g b)) : SessionsAgree (x >>= f) (y >>= g) := by
  rcases x with e | a <;> rcases y with e' | b
  · exact h
  · exact h.elim
  · exact h.elim
  · exact hfg a b h

theorem SessionsAgree.map {x y : Except Fault Session} {f g : Session → Session} (h : SessionsAgree x y)
    (hfg : ∀ a b, a.LiveEq b → (f a).LiveEq (g b)) :
    SessionsAgree (x >>= fun a => .ok (f a)) (y >>= fun b => .ok (g b)) :=
  h.bind hfg

theorem Session.LiveEq.chunkStart {a b : Session} (h : a.LiveEq b) (ctr : BitVec 64) :
    (a.chunkStart ctr).LiveEq (b.chunkStart ctr) := by
  obtain ⟨stk, rfl, hstk⟩ := (Session.liveEq_iff a b).mp h
  exact (Session.liveEq_iff _ _).mpr ⟨stk, rfl, hstk⟩

theorem Session.LiveEq.chunkUpdate {a b : Session} (h : a.LiveEq b) (d : List Byte) :
    (a.chunkUpdate d).LiveEq (b.chunkUpdate d) := by
  obtain ⟨stk, rfl, hstk⟩ := (Session.liveEq_iff a b).mp h
  exact (Session.liveEq_iff _ _).mpr ⟨stk, rfl, hstk⟩

/-- A session just constructed has nothing of the one before. -/
theorem Session.liveEq_init (a b : Session) (k : CV) (f : Word) : (a.init k f).LiveEq (b.init k f) :=
  ⟨rfl, rfl, rfl, rfl, fun d hd => absurd hd (Nat.not_lt_zero d.val)⟩

theorem Session.LiveEq.push {a b : Session} (h : a.LiveEq b) (cv : CV) : SessionsAgree (a.push cv) (b.push cv) := by
  obtain ⟨stk, rfl, hstk⟩ := (Session.liveEq_iff a b).mp h
  by_cases hfull : a.stkDepth.val = 54
  · simp [Session.push, hfull, SessionsAgree]
  · have hlt : a.stkDepth.val < 54 := by omega
    rw [Session.push_ok a cv hlt, Session.push_ok { a with stk := stk } cv hlt]
    refine (Session.liveEq_iff _ _).mpr ⟨_, rfl, fun d hd hdepth => ?_⟩
    simp only [Vector.getElem_set]
    split
    · rfl
    · exact hstk d hd (by simp only at hdepth; omega)

/-- A pop gives the same entry of live-equal sessions, or faults on both. -/
theorem Session.LiveEq.pop {a b : Session} (h : a.LiveEq b) :
    (∃ f, a.pop = .error f ∧ b.pop = .error f) ∨
    ∃ cv a' b', a.pop = .ok (cv, a') ∧ b.pop = .ok (cv, b') ∧ a'.LiveEq b' := by
  obtain ⟨stk, rfl, hstk⟩ := (Session.liveEq_iff a b).mp h
  rcases Nat.eq_zero_or_pos a.stkDepth.val with h0 | hpos
  · exact .inl ⟨_, a.pop_empty h0, Session.pop_empty { a with stk := stk } h0⟩
  · have hlt := a.stkDepth.isLt
    refine .inr ⟨_, _, _, a.pop_ok hpos, ?_, (Session.liveEq_iff _ _).mpr ⟨stk, rfl, fun d hd hdepth => hstk d hd ?_⟩⟩
    · rw [Session.pop_ok { a with stk := stk } hpos, hstk _ (by omega) (by omega)]
    · simp only at hdepth
      omega

theorem Session.LiveEq.mergeLoop {a b : Session} (h : a.LiveEq b) (k : Nat) (cv : CV) (total : BitVec 64) :
    SessionsAgree (Session.mergeLoop k a cv total) (Session.mergeLoop k b cv total) := by
  induction k generalizing a b cv total with
  | zero => rfl
  | succ k ih =>
    rcases Nat.mod_two_eq_zero_or_one total.toNat with heven | hodd
    · rw [Session.mergeLoop_even k a cv total heven, Session.mergeLoop_even k b cv total heven]
      rcases h.pop with ⟨f, ha, hb⟩ | ⟨left, a', b', ha, hb, hpop⟩
      · rw [ha, hb]
        rfl
      · obtain ⟨hkey, hflags, -⟩ := id hpop
        rw [ha, hb]
        change SessionsAgree (Session.mergeLoop k a' (parentCv a'.key a'.sflags left cv) (total >>> 1))
          (Session.mergeLoop k b' (parentCv b'.key b'.sflags left cv) (total >>> 1))
        rw [hkey, hflags]
        exact ih hpop _ _
    · rw [Session.mergeLoop_odd k a cv total hodd, Session.mergeLoop_odd k b cv total hodd]
      exact h.push cv

theorem Session.completeChunk_eq (ses : Session) : ses.completeChunk =
    ses.addChunkCv (outputCv ses.chunkOutput) (ses.chunk.csCtr + 1) >>= fun merged =>
      .ok (merged.chunkStart (ses.chunk.csCtr + 1)) := by
  rw [Session.completeChunk]
  rcases ses.addChunkCv (outputCv ses.chunkOutput) (ses.chunk.csCtr + 1) <;> rfl

theorem Session.LiveEq.makeRoom {a b : Session} (h : a.LiveEq b) : SessionsAgree a.makeRoom b.makeRoom := by
  obtain ⟨-, hflags, hchunk, hdepth, -⟩ := id h
  have hout : a.chunkOutput = b.chunkOutput := by rw [Session.chunkOutput, Session.chunkOutput, hflags, hchunk]
  rw [Session.makeRoom, Session.makeRoom, Session.completeChunk_eq, Session.completeChunk_eq, Session.addChunkCv,
    Session.addChunkCv, hout, hchunk, hdepth]
  split
  · exact (h.mergeLoop _ _ _).map fun _ _ hmerged => hmerged.chunkStart _
  · exact h

theorem Session.absorbByte_eq (ses : Session) (b : Byte) :
    ses.absorbByte b = ses.makeRoom >>= fun ses' => .ok (ses'.chunkUpdate [b]) := by
  rcases hroom : ses.makeRoom with f | ses'
  · exact Session.absorbByte_error hroom
  · exact Session.absorbByte_ok hroom

/-- Absorbing reads no stack entry at or above the depth. -/
theorem Session.LiveEq.inputData {a b : Session} (h : a.LiveEq b) (d : List Byte) :
    SessionsAgree (a.inputData d) (b.inputData d) := by
  induction d generalizing a b with
  | nil => exact h
  | cons x d ih =>
    rw [Session.inputData_cons, Session.inputData_cons, Session.absorbByte_eq, Session.absorbByte_eq]
    exact (h.makeRoom.map fun _ _ hroom => hroom.chunkUpdate [x]).bind fun _ _ hbyte => ih hbyte

theorem Session.LiveEq.foldStack {a b : Session} (h : a.LiveEq b) (d : Nat) (hd : d ≤ a.stkDepth.val) (h54 : d ≤ 54) (o : Output) :
    a.foldStack d h54 o = b.foldStack d h54 o := by
  induction d generalizing o with
  | zero => rfl
  | succ d ih =>
    obtain ⟨hkey, hflags, -, -, hstk⟩ := id h
    have hentry : a.stk[d] = b.stk[d] := hstk ⟨d, h54⟩ hd
    rw [Session.foldStack, Session.foldStack, hkey, hflags, hentry]
    exact ih (by omega) (by omega) _

/-- The root of the tree is read off the live registers. -/
theorem Session.LiveEq.rootOutput {a b : Session} (h : a.LiveEq b) : a.rootOutput = b.rootOutput := by
  obtain ⟨-, hflags, hchunk, hdepth, -⟩ := id h
  have hout : a.chunkOutput = b.chunkOutput := by rw [Session.chunkOutput, Session.chunkOutput, hflags, hchunk]
  have hfold := h.foldStack a.stkDepth.val (Nat.le_refl _) (by omega) a.chunkOutput
  rw [Session.rootOutput, hfold, hout]
  simp only [hdepth, Session.rootOutput]

theorem Session.LiveEq.totalAbsorbed {a b : Session} (h : a.LiveEq b) : a.totalAbsorbed = b.totalAbsorbed := by
  obtain ⟨-, -, hchunk, -⟩ := h
  rw [Session.totalAbsorbed, Session.totalAbsorbed, hchunk]

/-! ### States -/

theorem State.LiveEq.raise {s t : State} (h : s.LiveEq t) (c : ResultCode) (n : Nat) : (s.raise c n).LiveEq (t.raise c n) := by
  obtain ⟨hv, -, -, hcp, hout, hstream, hses⟩ := h
  exact ⟨hv, rfl, rfl, congrArg (· + n) hcp, hout, hstream, hses⟩

theorem State.LiveEq.startSession {s t : State} (h : s.LiveEq t) {a b : Session} (hab : a.LiveEq b) (n : Nat) :
    ((s.startSession a).finishOk n).LiveEq ((t.startSession b).finishOk n) := by
  obtain ⟨-, -, herr, hcp, hout, hstream, -⟩ := h
  exact ⟨rfl, rfl, herr, congrArg (· + n) hcp, hout, hstream, fun _ => hab⟩

theorem State.LiveEq.withSession {s t : State} (h : s.LiveEq t) {a b : Session} (hab : a.LiveEq b) (n : Nat) :
    ((s.withSession a).finishOk n).LiveEq ((t.withSession b).finishOk n) := by
  obtain ⟨hv, -, herr, hcp, hout, hstream, -⟩ := h
  exact ⟨hv, rfl, herr, congrArg (· + n) hcp, hout, hstream, fun _ => hab⟩

theorem State.LiveEq.emit {s t : State} (h : s.LiveEq t) (ws : List Word) (n : Nat) :
    ((s.emit ws).finishOk n).LiveEq ((t.emit ws).finishOk n) := by
  obtain ⟨hv, -, herr, hcp, hout, hstream, hses⟩ := h
  exact ⟨hv, rfl, herr, congrArg (· + n) hcp, congrArg (· ++ ws) hout, hstream, hses⟩

/-! ### Commands, steps and runs -/

theorem execInitKeyedHash_agree {s t : State} (h : s.LiveEq t) (len : BitVec 64) (pw : List Word) :
    OutcomesAgree State.LiveEq (execInitKeyedHash len pw s) (execInitKeyedHash len pw t) := by
  by_cases hlen : len.toNat = 32
  · rw [execInitKeyedHash_ok len pw s hlen, execInitKeyedHash_ok len pw t hlen]
    exact h.startSession (Session.liveEq_init _ _ _ _) 11
  · rw [execInitKeyedHash_error len pw s hlen, execInitKeyedHash_error len pw t hlen]
    exact h.raise _ _

theorem execInitKdf_agree {s t : State} (h : s.LiveEq t) (len : BitVec 64) (pw : List Word) :
    OutcomesAgree State.LiveEq (execInitKdf len pw s) (execInitKdf len pw t) := by
  have hctx := (Session.liveEq_init s.session t.session iv flagDeriveKeyContext).inputData (payloadBytes len pw)
  rcases hs : (s.session.init iv flagDeriveKeyContext).inputData (payloadBytes len pw) with f | a <;>
    rcases ht : (t.session.init iv flagDeriveKeyContext).inputData (payloadBytes len pw) with f' | b <;> rw [hs, ht] at hctx
  · rw [execInitKdf_fault len pw s f hs, execInitKdf_fault len pw t f' ht]
    exact hctx
  · exact hctx.elim
  · exact hctx.elim
  · rw [execInitKdf_ok len pw s a hs, execInitKdf_ok len pw t b ht, Session.derivedKey, Session.derivedKey,
      Session.LiveEq.rootOutput hctx]
    exact h.startSession (Session.liveEq_init _ _ _ _) _

theorem execAbsorb_agree {s t : State} (h : s.LiveEq t) (len : BitVec 64) (pw : List Word) :
    OutcomesAgree State.LiveEq (execAbsorb len pw s) (execAbsorb len pw t) := by
  obtain ⟨hv, -, -, -, -, -, hses⟩ := id h
  rcases hvs : s.engineValid with _ | _
  · rw [execAbsorb_noEngine len pw s hvs, execAbsorb_noEngine len pw t (hv ▸ hvs)]
    exact h.raise _ _
  have hvt : t.engineValid = true := hv ▸ hvs
  have htotal := (hses hvs).totalAbsorbed
  rcases Nat.lt_or_ge (2 ^ 64) (s.session.totalAbsorbed + len.toNat) with hmax | hmax
  · rw [execAbsorb_inputLimit len pw s hvs hmax, execAbsorb_inputLimit len pw t hvt (htotal ▸ hmax)]
    exact h.raise _ _
  have hdata := (hses hvs).inputData (payloadBytes len pw)
  rcases hs : s.session.inputData (payloadBytes len pw) with f | a <;>
    rcases ht : t.session.inputData (payloadBytes len pw) with f' | b <;> rw [hs, ht] at hdata
  · rw [execAbsorb_fault len pw s f hvs hmax hs, execAbsorb_fault len pw t f' hvt (htotal ▸ hmax) ht]
    exact hdata
  · exact hdata.elim
  · exact hdata.elim
  · rw [execAbsorb_ok len pw s a hvs hmax hs, execAbsorb_ok len pw t b hvt (htotal ▸ hmax) ht]
    exact h.withSession hdata _

theorem execSqueeze_agree {s t : State} (h : s.LiveEq t) (len : BitVec 64) :
    OutcomesAgree State.LiveEq (execSqueeze len s) (execSqueeze len t) := by
  obtain ⟨hv, -, -, -, -, -, hses⟩ := id h
  rcases hvs : s.engineValid with _ | _
  · rw [execSqueeze_noEngine len s hvs, execSqueeze_noEngine len t (hv ▸ hvs)]
    exact h.raise _ _
  · rw [execSqueeze_ok len s hvs, execSqueeze_ok len t (hv ▸ hvs), (hses hvs).rootOutput]
    exact h.emit _ _

theorem execReset_agree {s t : State} (h : s.LiveEq t) : OutcomesAgree State.LiveEq (execReset s) (execReset t) := by
  obtain ⟨hv, -, -, -, -, -, hses⟩ := id h
  rcases hvs : s.engineValid with _ | _
  · rw [execReset_noEngine s hvs, execReset_noEngine t (hv ▸ hvs)]
    exact h.raise _ _
  · obtain ⟨hkey, hflags, -⟩ := hses hvs
    rw [execReset_ok s hvs, execReset_ok t (hv ▸ hvs), hkey, hflags]
    exact h.withSession (Session.liveEq_init _ _ _ _) _

/-- No command reads a dead register. -/
theorem exec_agree (i : Instr) {s t : State} (h : s.LiveEq t) : OutcomesAgree State.LiveEq (exec i s) (exec i t) := by
  cases i with
  | initHash => exact h.startSession (Session.liveEq_init _ _ _ _) 1
  | initKeyedHash len pw => exact execInitKeyedHash_agree h len pw
  | initKdf len pw => exact execInitKdf_agree h len pw
  | absorb len pw => exact execAbsorb_agree h len pw
  | squeeze len => exact execSqueeze_agree h len
  | reset => exact execReset_agree h

theorem step_agree {s t : State} (h : s.LiveEq t) : OutcomesAgree State.LiveEq (step s) (step t) := by
  obtain ⟨-, -, -, hcp, -, hstream, -⟩ := id h
  have hfetch : s.fetch = t.fetch := by rw [State.fetch, State.fetch, hstream, hcp]
  unfold step
  rw [hfetch]
  split
  · exact exec_agree _ h
  · exact h.raise .illegalCommand 1
  · exact h

/-- Settles O54: each command in turn keeps live-equal states live-equal, the loops byte by byte and entry by entry. -/
theorem stepDoesNotReadDeadRegisters : Obligations.StepDoesNotReadDeadRegisters :=
  fun _ _ h => step_agree h

theorem run_agree (k : Nat) {s t : State} (h : s.LiveEq t) :
    OutcomesAgree State.LiveEq (Host.Core.run core k s) (Host.Core.run core k t) := by
  induction k generalizing s t with
  | zero => exact h
  | succ k ih =>
    have hstep := step_agree h
    rcases hs : step s with s' | f | r <;> rcases ht : step t with t' | f' | r' <;> rw [hs, ht] at hstep
    · rw [run_succ_next k s s' hs, run_succ_next k t t' ht]
      exact ih hstep
    · exact hstep.elim
    · exact hstep.elim
    · exact hstep.elim
    · rw [run_succ_fault k s f hs, run_succ_fault k t f' ht]
      exact hstep
    · exact hstep.elim
    · exact hstep.elim
    · exact hstep.elim
    · rw [run_succ_refused k s r hs, run_succ_refused k t r' ht]
      exact hstep

theorem OutcomesAgree.mono {R Q : State → State → Prop} (hRQ : ∀ s t, R s t → Q s t)
    {x y : Host.Outcome State Fault Refusal} (h : OutcomesAgree R x y) : OutcomesAgree Q x y := by
  rcases x with s | f | r <;> rcases y with t | f' | r'
  case next.next => exact hRQ s t h
  all_goals exact h

theorem State.LiveEq.observation_eq {s t : State} (h : s.LiveEq t) : s.observation = t.observation := by
  obtain ⟨hv, hres, herr, hcp, hout, -, -⟩ := h
  rw [State.observation, State.observation, State.status, State.status, hv, hres, herr, hcp, hout]

/-- Settles O55: after reset the states differ in dead registers alone. -/
theorem resetContentsAreUnobservable : Obligations.ResetContentsAreUnobservable := by
  intro s junk₁ junk₂ ws k
  have hlive : ((s.hardReset junk₁).receive ws).LiveEq ((s.hardReset junk₂).receive ws) :=
    ⟨rfl, rfl, rfl, rfl, rfl, rfl, fun h => nomatch h⟩
  exact (run_agree k hlive).mono fun _ _ h => h.observation_eq

end Sys2Proof.Machine

/-! What the host reads: the `STATUS` word, the numbered state elements, and the state after hardware reset (10_state.md R34, R35,
R43; 60_exceptions.md R201). -/

namespace Sys2Proof.Machine

/-! ### `STATUS` -/

/-- The fields of a word laid out as `STATUS` is. -/
theorem statusWord_fields : ∀ (code : BitVec 4) (errSeen valid : Bool),
    let w : Word := code.zeroExtend 32 ||| ((BitVec.ofBool errSeen).zeroExtend 32 <<< 4)
      ||| ((BitVec.ofBool valid).zeroExtend 32 <<< 5)
    w.extractLsb' 0 4 = code ∧ w.getLsbD 4 = errSeen ∧ w.getLsbD 5 = valid ∧ w.extractLsb' 6 26 = 0 := by
  decide

theorem ResultCode.code_toNat_le (c : ResultCode) : c.code.toNat ≤ 4 := by
  cases c <;> decide

theorem ResultCode.code_eq_zero_iff (c : ResultCode) : c.code = 0 ↔ c = .ok := by
  cases c <;> decide

/-- Settles O14, from the layout of the word and the table of codes. -/
theorem statusWordFields : Obligations.StatusWordFields :=
  ⟨fun s => statusWord_fields s.result.code s.errSeen s.engineValid, rfl, rfl, rfl, rfl, rfl,
    fun c => ⟨c.code_toNat_le, c.code_eq_zero_iff⟩⟩

/-! ### The numbered elements -/

/-- The four bytes at the address of a block word. -/
theorem memRead_word (buf : BlockBuffer) (i : Nat) (h : i < 16) :
    memRead buf (4 * i) 4 = [buf[4 * i], buf[4 * i + 1], buf[4 * i + 2], buf[4 * i + 3]] := by
  simp (disch := simp; omega) [memRead, List.drop_eq_getElem_cons]

theorem State.element_key (s : State) (i : Nat) (h : i < 8) : s.element (0x008 + i) = s.session.key[i]? := by
  simp (disch := omega) only [State.element, if_neg, if_pos, Nat.add_sub_cancel_left]

theorem State.element_csCv (s : State) (i : Nat) (h : i < 8) : s.element (0x010 + i) = s.session.chunk.csCv[i]? := by
  simp (disch := omega) only [State.element, if_neg, if_pos, Nat.add_sub_cancel_left]

theorem State.element_csBuf (s : State) (i : Nat) (h : i < 16) :
    s.element (0x020 + i) = some (blockWords s.session.chunk.csBuf)[i] := by
  simp (disch := omega) only [State.element, if_neg, if_pos, Nat.add_sub_cancel_left]
  rw [memRead_word _ i h, wordsLe_four_cons, blockWords_getElem]
  rfl

/-- The numbers between the chaining value and the block buffer, and between the block buffer and the stack. -/
theorem State.element_gap (s : State) (n : Nat) (h : (0x018 ≤ n ∧ n < 0x020) ∨ (0x030 ≤ n ∧ n < 0x100)) :
    s.element n = none := by
  rcases h with ⟨hlo, hhi⟩ | ⟨hlo, hhi⟩
  · simp (disch := omega) only [State.element, if_neg, if_pos]
  · simp (disch := omega) only [State.element, if_neg, if_pos]

/-- From 0x100 on the numbers name the words of the stack entries. -/
theorem State.element_stk (s : State) (k : Nat) :
    s.element (0x100 + k) = (s.session.stk[k / 8]?).bind fun entry => entry[k % 8]? := by
  simp (disch := omega) only [State.element, if_neg, Nat.add_sub_cancel_left]
  rcases s.session.stk[k / 8]? with _ | entry <;> rfl

/-- Settles O49, range by range of the numbers. -/
theorem stateElementNumbers : Obligations.StateElementNumbers := by
  intro s
  refine ⟨rfl, rfl, ?_, rfl, rfl, rfl, rfl, rfl, ?_, fun i => s.element_csBuf i.val i.isLt, ?_, ?_⟩
  · change some ((BitVec.ofBool s.engineValid).zeroExtend 32) = _
    cases s.engineValid <;> rfl
  · intro i
    refine ⟨?_, ?_, s.element_gap _ (.inl (by omega))⟩
    · rw [s.element_key i.val i.isLt]
      exact Vector.getElem?_eq_getElem i.isLt
    · rw [s.element_csCv i.val i.isLt]
      exact Vector.getElem?_eq_getElem i.isLt
  · intro d i
    rw [Nat.add_assoc, s.element_stk, show (8 * d.val + i.val) / 8 = d.val by omega,
      show (8 * d.val + i.val) % 8 = i.val by omega, Vector.getElem?_eq_getElem d.isLt]
    exact Vector.getElem?_eq_getElem i.isLt
  · rintro n (hgap | habove)
    · exact s.element_gap n (.inr hgap)
    · obtain ⟨k, rfl⟩ := Nat.exists_eq_add_of_le (show 0x100 ≤ n by omega)
      rw [s.element_stk, Vector.getElem?_eq_none (by omega)]
      rfl

/-! ### Hardware reset -/

theorem State.hardReset_status (s : State) (junk : Session) : (s.hardReset junk).status = 0 := by
  change State.reset.status = 0
  decide

/-- After reset no word has been received, so the core is held. -/
theorem State.step_hardReset (s : State) (junk : Session) : step (s.hardReset junk) = .next (s.hardReset junk) := rfl

/-- Settles O50, field by field. -/
theorem hardwareResetValues : Obligations.HardwareResetValues :=
  ⟨fun s junk => ⟨rfl, s.hardReset_status junk, rfl, rfl, rfl, s.step_hardReset junk⟩, fun _ => rfl⟩

end Sys2Proof.Machine

/-! The words of a command read back as the command, and the command that a step executes (20_memory.md R52, R60; 30_encoding.md
R71 to R75; 60_exceptions.md R202). -/

namespace Sys2Proof

/-! ### Decoding what was encoded -/

/-- The two length words of R73 put together again. -/
@[simp] theorem lenOf_lenLo_lenHi (len : BitVec 64) : lenOf (lenLo len) (lenHi len) = len := by
  ext k hk
  by_cases hlow : k < 32
  · simp [lenOf, lenLo, lenHi, hlow, hk]
  · have hhigh : 32 + (k - 32) = k := by omega
    have hlt : k - 32 < 32 := by omega
    simp [lenOf, lenLo, lenHi, hlow, hk, hhigh, hlt]

/-- A payload of the right length is read whole, and nothing after it. -/
theorem decodePayload_append (mk : BitVec 64 → List Word → Instr) (len : BitVec 64) (pw rest : List Word)
    (h : pw.length = payloadWords len) :
    decodePayload mk (lenLo len :: lenHi len :: (pw ++ rest)) = .ok (mk len pw, rest) := by
  have henough : ¬ (pw ++ rest).length < payloadWords len := by
    rw [List.length_append]
    omega
  simp only [decodePayload, lenOf_lenLo_lenHi, if_neg henough]
  rw [List.take_left' h, List.drop_left' h]

/-- The header word of an opcode names that opcode (30_encoding.md R75). -/
@[simp] theorem Op.ofHeader_header (op : Op) : Op.ofHeader op.header = some op := by
  cases op <;> decide

/-! The decoder after each header that has operands. -/

theorem decode_initKeyedHash_header (ws : List Word) :
    decode (Op.initKeyedHash.header :: ws) = decodePayload .initKeyedHash ws := by
  simp only [decode, Op.ofHeader_header]

theorem decode_initKdf_header (ws : List Word) : decode (Op.initKdf.header :: ws) = decodePayload .initKdf ws := by
  simp only [decode, Op.ofHeader_header]

theorem decode_absorb_header (ws : List Word) : decode (Op.absorb.header :: ws) = decodePayload .absorb ws := by
  simp only [decode, Op.ofHeader_header]

theorem decode_squeeze_header (lo hi : Word) (ws : List Word) :
    decode (Op.squeeze.header :: lo :: hi :: ws) = .ok (.squeeze (lenOf lo hi), ws) := by
  simp only [decode, Op.ofHeader_header]

/-- Decoding the words of a well-formed command gives the command and leaves the words after it. -/
theorem decode_encode_append {i : Instr} (h : i.WellFormed) (rest : List Word) : decode (encode i ++ rest) = .ok (i, rest) := by
  cases i with
  | initHash => rfl
  | initKeyedHash len pw => exact (decode_initKeyedHash_header _).trans (decodePayload_append _ len pw rest (beq_iff_eq.mp h))
  | initKdf len pw => exact (decode_initKdf_header _).trans (decodePayload_append _ len pw rest (beq_iff_eq.mp h))
  | absorb len pw => exact (decode_absorb_header _).trans (decodePayload_append _ len pw rest (beq_iff_eq.mp h))
  | squeeze len =>
    refine (decode_squeeze_header _ _ rest).trans ?_
    rw [Instr.len, lenOf_lenLo_lenHi]
  | reset => rfl

end Sys2Proof

namespace Sys2Proof.Machine

/-! ### The command at `CP` -/

theorem step_of_decode {s : State} {i : Instr} {rest : List Word} (h : decode s.fetch = .ok (i, rest)) : step s = exec i s := by
  rw [step, h]

theorem step_of_fetch_encode {s : State} {i : Instr} {rest : List Word} (hwf : i.WellFormed) (h : s.fetch = encode i ++ rest) :
    step s = exec i s :=
  step_of_decode (h ▸ decode_encode_append hwf rest)

/-- Settles O8: a step executes what it decodes, and an encoded command is decoded as itself. -/
theorem stepExecutesTheCommandAtCp : Obligations.StepExecutesTheCommandAtCp :=
  ⟨fun _ _ _ => step_of_decode, fun _ _ _ => step_of_fetch_encode⟩

end Sys2Proof.Machine

/-! What the decoder reads: the header words of the table, the command behind every word sequence it accepts, and the headers it
rejects (30_encoding.md R71 to R77). -/

namespace Sys2Proof

/-- Settles O1: the two length words give `LEN` back, and `LEN` gives the number of payload words. -/
theorem decodeOfEncodeIsTheCommand : Obligations.DecodeOfEncodeIsTheCommand :=
  fun _ rest h => decode_encode_append h rest

/-! ### The header -/

/-- A header whose reserved bits are zero is its opcode field (30_encoding.md R72). -/
theorem eq_opField_of_rsvdField {h : Word} (hr : rsvdField h = 0) : h = (opField h).zeroExtend 32 := by
  apply BitVec.eq_of_toNat_eq
  have hzero := congrArg BitVec.toNat hr
  simp [rsvdField, opField, BitVec.extractLsb'_toNat, Nat.shiftRight_eq_div_pow] at hzero ⊢
  omega

/-- A legal header is the header word of the opcode it names (30_encoding.md R75). -/
theorem Op.ofHeader_eq_some_iff (h : Word) (op : Op) : Op.ofHeader h = some op ↔ h = op.header := by
  constructor
  · intro hop
    by_cases hr : rsvdField h = 0
    · have hall : ∀ x : BitVec 4, Op.ofHeader (x.zeroExtend 32) = some op → x.zeroExtend 32 = op.header := by
        cases op <;> decide
      rw [eq_opField_of_rsvdField hr] at hop ⊢
      exact hall _ hop
    · rw [Op.ofHeader, if_neg hr] at hop
      cases hop
  · rintro rfl
    exact Op.ofHeader_header op

/-- Settles O3: the table of the statement lists the header words of the six opcodes. -/
theorem legalHeadersAreTheSixTableWords : Obligations.LegalHeadersAreTheSixTableWords := by
  intro h op
  have hmask : h &&& 0xFFFFFFFF = h := BitVec.and_allOnes
  rw [Op.ofHeader_eq_some_iff, hmask]
  cases op <;> simp [Op.header]

/-- A header with reserved bits set, or with a reserved opcode, names no opcode (30_encoding.md R77). -/
theorem Op.ofHeader_eq_none {h : Word} (hbad : rsvdField h ≠ 0 ∨ opField h = 0 ∨ 7 ≤ (opField h).toNat) :
    Op.ofHeader h = none := by
  cases hop : Op.ofHeader h with
  | none => rfl
  | some op =>
    rw [Op.ofHeader_eq_some_iff] at hop
    subst hop
    exact absurd hbad (by cases op <;> decide)

/-! ### The operands -/

/-- `LEN_LO` is the low half of `LEN` (30_encoding.md R73). -/
@[simp] theorem lenLo_lenOf (lo hi : Word) : lenLo (lenOf lo hi) = lo := by
  apply BitVec.eq_of_getLsbD_eq
  intro i hlt
  simp [lenLo, lenOf, hlt, show i < 64 by omega]

/-- `LEN_HI` is the high half of `LEN` (30_encoding.md R73). -/
@[simp] theorem lenHi_lenOf (lo hi : Word) : lenHi (lenOf lo hi) = hi := by
  apply BitVec.eq_of_getLsbD_eq
  intro i hlt
  simp [lenHi, lenOf, hlt, show 32 + i < 64 by omega]

/-- A command read from the operands of format `HLP` is well-formed, and its words are the header and the operands read. -/
theorem decodePayload_cases {mk : BitVec 64 → List Word → Instr} {op : Op} {ws rest : List Word} {i : Instr}
    (hwf : ∀ len pw, (mk len pw).wellFormed = (pw.length == payloadWords len))
    (hencode : ∀ len pw, encode (mk len pw) = op.header :: lenLo len :: lenHi len :: pw)
    (h : decodePayload mk ws = .ok (i, rest)) : i.WellFormed ∧ op.header :: ws = encode i ++ rest := by
  match ws, h with
  | [], h | [_], h => cases h
  | lo :: hi :: ws, h =>
    change (if ws.length < payloadWords (lenOf lo hi) then _ else _) = _ at h
    by_cases hshort : ws.length < payloadWords (lenOf lo hi)
    · rw [if_pos hshort] at h
      cases h
    · rw [if_neg hshort] at h
      cases h
      constructor
      · rw [Instr.WellFormed, hwf, beq_iff_eq, List.length_take]
        omega
      · simp [hencode]

/-! ### The command -/

/-- A decoded command is well-formed, and its words are those read. -/
theorem decode_cases {ws rest : List Word} {i : Instr} (h : decode ws = .ok (i, rest)) :
    i.WellFormed ∧ ws = encode i ++ rest := by
  match ws, h with
  | [], h => cases h
  | w :: ws, h =>
    cases hop : Op.ofHeader w with
    | none => simp [decode, hop] at h
    | some op =>
      rw [Op.ofHeader_eq_some_iff] at hop
      subst hop
      cases op with
      | initHash =>
        cases h
        exact ⟨rfl, rfl⟩
      | initKeyedHash =>
        exact decodePayload_cases (fun _ _ => rfl) (fun _ _ => rfl) ((decode_initKeyedHash_header ws).symm.trans h)
      | initKdf =>
        exact decodePayload_cases (fun _ _ => rfl) (fun _ _ => rfl) ((decode_initKdf_header ws).symm.trans h)
      | absorb =>
        exact decodePayload_cases (fun _ _ => rfl) (fun _ _ => rfl) ((decode_absorb_header ws).symm.trans h)
      | squeeze =>
        match ws, h with
        | [], h | [_], h => cases h
        | lo :: hi :: ws, h =>
          cases h
          exact ⟨rfl, by simp [encode, Op.format, Instr.op, Instr.len]⟩
      | reset =>
        cases h
        exact ⟨rfl, rfl⟩

/-- Settles O2: the number of words is what is left when the words after the command are taken away. -/
theorem decodedCommandIsExactlyItsWords : Obligations.DecodedCommandIsExactlyItsWords := by
  intro ws i rest h
  obtain ⟨hwf, hws⟩ := decode_cases h
  have hlen := Machine.decode_length h
  rw [hws, List.length_append] at hlen
  exact ⟨hwf, hws, by omega⟩

/-- Settles O4, by evaluation of the decoder on the fixed words. -/
theorem specWordsDecodeToTheirCommands : Obligations.SpecWordsDecodeToTheirCommands :=
  ⟨rfl, rfl, rfl, rfl, rfl, rfl, rfl, rfl⟩

end Sys2Proof

/-! The payload of format `HLP` and the illegal header at `CP` (30_encoding.md R74, R77, R85; 60_exceptions.md R205). -/

namespace Sys2Proof.Machine

/-! ### The payload -/

/-- A payload with enough words has `LEN` bytes (30_encoding.md R74). -/
theorem payloadBytes_length {len : BitVec 64} {pw : List Word} (h : len.toNat ≤ 4 * pw.length) :
    (payloadBytes len pw).length = len.toNat := by
  rw [payloadBytes, List.length_take, bytesLe_length]
  omega

/-- Byte `k` of a payload (30_encoding.md R74). -/
theorem payloadBytes_getElem? {len : BitVec 64} {pw : List Word} {k : Nat} (hk : k < len.toNat) (h : len.toNat ≤ 4 * pw.length) :
    (payloadBytes len pw)[k]? = (pw[k / 4]?).map fun w => w.extractLsb' (8 * (k % 4)) 8 := by
  rw [payloadBytes, List.getElem?_take_of_lt hk, bytesLe_getElem? pw k (by omega)]

/-- Settles O5: the payload is the first `LEN` of the words' bytes, and the three meanings read the payload words only through it. -/
theorem payloadBytesAreLittleEndianAndPadIsIgnored : Obligations.PayloadBytesAreLittleEndianAndPadIsIgnored := by
  refine ⟨fun len pw hpw => ?_, fun len pw => ⟨rfl, rfl, rfl⟩, fun len pw pw' s h => ?_⟩
  · have henough : len.toNat ≤ 4 * pw.length := by omega
    exact ⟨payloadBytes_length henough, fun k hk => payloadBytes_getElem? hk henough⟩
  · simp only [exec, execInitKeyedHash, execInitKdf, execAbsorb, h, and_self]

/-- The bytes of packed words are the bytes packed, then the zero padding (00_scope.md R13; 30_encoding.md R85). -/
theorem bytesLe_packBytes (bs : List Byte) : bytesLe (packBytes bs) = bs ++ zeros ((4 - bs.length % 4) % 4) := by
  apply bytesLe_wordsLe
  rw [List.length_append, zeros_length]
  omega

theorem lenOfBytes_toNat {bs : List Byte} (h : bs.length < 2 ^ 64) : (lenOfBytes bs).toNat = bs.length := by
  rw [lenOfBytes, BitVec.toNat_ofNat, Nat.mod_eq_of_lt h]

/-- Settles O6: `LEN` cuts the zero padding off, and packing gives `ceil(LEN/4)` words. -/
theorem packedPayloadReadsBack : Obligations.PackedPayloadReadsBack := by
  intro bs hlt
  have hlen := lenOfBytes_toNat hlt
  have hwords : (packBytes bs).length = payloadWords (lenOfBytes bs) := by rw [packBytes_length, payloadWords, hlen]
  have hwf := beq_iff_eq.mpr hwords
  refine ⟨?_, hwf, hwf, hwf⟩
  rw [payloadBytes, hlen, bytesLe_packBytes, List.take_left]

/-! ### The illegal header -/

theorem State.fetch_illegalCommand (s : State) : s.illegalCommand.fetch = s.fetch.drop 1 := by
  rw [State.fetch, State.fetch, List.drop_drop, State.illegalCommand_stream, State.illegalCommand_cp]

/-- At a header that names no opcode a step completes with `ILLEGAL_COMMAND` (60_exceptions.md R205). -/
theorem step_of_illegal_header {s : State} {h : Word} {ws : List Word} (hfetch : s.fetch = h :: ws)
    (hop : Op.ofHeader h = none) : step s = .next s.illegalCommand := by
  simp only [step, hfetch, decode, hop]

/-- Every result of a command is one of checks 3 to 5, or success (60_exceptions.md R202). -/
theorem exec_result_ne_illegalCommand {i : Instr} {s t : State} (h : exec i s = .next t) : t.result ≠ .illegalCommand := by
  rcases exec_cases h with ⟨c, -, rfl, ⟨rfl, -⟩ | ⟨rfl, -⟩ | ⟨rfl, -⟩⟩ | ⟨-, rfl⟩ | ⟨len, pw, -, -, rfl⟩ |
    ⟨len, pw, context, -, -, rfl⟩ | ⟨len, pw, ses, -, -, -, -, rfl⟩ | ⟨len, -, -, rfl⟩ | ⟨-, -, rfl⟩
  all_goals exact ResultCode.noConfusion

/-- Settles O9: the step ends as an illegal command, and no case of a command does. -/
theorem illegalHeaderCompletesWithIllegalCommand : Obligations.IllegalHeaderCompletesWithIllegalCommand := by
  refine ⟨fun s h ws hfetch hbad => ?_, fun _ _ _ => exec_result_ne_illegalCommand⟩
  refine ⟨s.illegalCommand, step_of_illegal_header hfetch (Op.ofHeader_eq_none hbad), rfl, ?_⟩
  rw [State.fetch_illegalCommand, hfetch, List.drop_succ_cons, List.drop_zero]

end Sys2Proof.Machine

/-! The compression primitive: G as eight writes of one word each, the message schedule as a table, and the compression and its
chaining value word by word (40_compression.md R103 to R108). -/

namespace Sys2Proof.Machine

/-! ### One write of G -/

/-- `rotr32` is the library's rotation to the right (00_scope.md R12). -/
theorem rotr32_eq_rotateRight (x : Word) {n : Nat} (h : n < 32) : rotr32 x n = x.rotateRight n := by
  rw [BitVec.rotateRight, Nat.mod_eq_of_lt h]
  rfl

/-- Word `i` replaced by a function of itself and word `j`: the form of every assignment of G (40_compression.md R103). -/
def updateWord (i j : Fin 16) (f : Word → Word → Word) (v : Block) : Block := v.set i (f v[i] v[j])

theorem updateWord_getElem_self (i j : Fin 16) (f : Word → Word → Word) (v : Block) : (updateWord i j f v)[i] = f v[i] v[j] :=
  Vector.getElem_set_self i.isLt

theorem updateWord_getElem_of_ne {i k : Fin 16} (h : k ≠ i) (j : Fin 16) (f : Word → Word → Word) (v : Block) :
    (updateWord i j f v)[k] = v[k] :=
  Vector.getElem_set_ne i.isLt k.isLt (Fin.val_ne_of_ne h.symm)

/-- G is eight writes of one word each (40_compression.md R103). -/
theorem g_eq_updateWord (v : Block) (a b c d : Fin 16) (mx my : Word) : g v a b c d mx my =
    (updateWord b c (fun x y => rotr32 (x ^^^ y) 7) <| updateWord c d (· + ·) <|
      updateWord d a (fun x y => rotr32 (x ^^^ y) 8) <| updateWord a b (· + · + my) <|
      updateWord b c (fun x y => rotr32 (x ^^^ y) 12) <| updateWord c d (· + ·) <|
      updateWord d a (fun x y => rotr32 (x ^^^ y) 16) <| updateWord a b (· + · + mx) v) := rfl

/-- Settles O26: each word is read after the writes that come before it, each of which changes one word. -/
theorem quarterRoundComputesItsFourWords : Obligations.QuarterRoundComputesItsFourWords := by
  intro v a b c d mx my hnodup
  simp only [List.nodup_cons, List.mem_cons, List.not_mem_nil, or_false, not_or, not_false_eq_true, List.nodup_nil,
    and_true] at hnodup
  obtain ⟨⟨hab, hac, had⟩, ⟨hbc, hbd⟩, hcd⟩ := hnodup
  refine ⟨_, _, _, _, rfl, rfl, rfl, rfl, ?_⟩
  simp +contextual only [g_eq_updateWord, updateWord_getElem_self, updateWord_getElem_of_ne, rotr32_eq_rotateRight,
    Nat.reduceLT, ne_eq, not_false_eq_true, hab, hac, had, hbc, hbd, hcd, Ne.symm hab, Ne.symm hac, Ne.symm had,
    Ne.symm hbc, Ne.symm hbd, Ne.symm hcd, implies_true, and_self]

/-! ### Disjoint words -/

/-- An operation reads and writes only the words at the indices of `S`. -/
structure ActsWithin (S : List (Fin 16)) (f : Block → Block) : Prop where
  frame (v : Block) : ∀ k ∉ S, (f v)[k] = v[k]
  congr (v w : Block) : (∀ k ∈ S, v[k] = w[k]) → ∀ k ∈ S, (f v)[k] = (f w)[k]

theorem actsWithin_updateWord {S : List (Fin 16)} {i j : Fin 16} (hi : i ∈ S) (hj : j ∈ S) (f : Word → Word → Word) :
    ActsWithin S (updateWord i j f) where
  frame v k hk := updateWord_getElem_of_ne (fun h => hk (by rwa [h])) j f v
  congr v w hvw k hk := by
    by_cases hki : k = i
    · subst hki
      rw [updateWord_getElem_self, updateWord_getElem_self, hvw k hi, hvw j hj]
    · rw [updateWord_getElem_of_ne hki, updateWord_getElem_of_ne hki, hvw k hk]

theorem ActsWithin.comp {S : List (Fin 16)} {f f' : Block → Block} (hf : ActsWithin S f) (hf' : ActsWithin S f') :
    ActsWithin S (f ∘ f') where
  frame v k hk := (hf.frame (f' v) k hk).trans (hf'.frame v k hk)
  congr v w hvw := hf.congr _ _ (hf'.congr v w hvw)

/-- G reads and writes only its four words (40_compression.md R103). -/
theorem actsWithin_g (a b c d : Fin 16) (mx my : Word) : ActsWithin [a, b, c, d] (g · a b c d mx my) := by
  have ha : a ∈ [a, b, c, d] := by simp
  have hb : b ∈ [a, b, c, d] := by simp
  have hc : c ∈ [a, b, c, d] := by simp
  have hd : d ∈ [a, b, c, d] := by simp
  have half (x : Word) (m n : Nat) : ActsWithin [a, b, c, d] (updateWord b c (fun x y => rotr32 (x ^^^ y) m) ∘
      updateWord c d (· + ·) ∘ updateWord d a (fun x y => rotr32 (x ^^^ y) n) ∘ updateWord a b (· + · + x)) :=
    (actsWithin_updateWord hb hc _).comp <| (actsWithin_updateWord hc hd _).comp <|
      (actsWithin_updateWord hd ha _).comp (actsWithin_updateWord ha hb _)
  exact (half my 7 8).comp (half mx 12 16)

/-- Of two operations on disjoint words, neither changes what the other gives its own words. -/
theorem ActsWithin.comp_getElem {S S' : List (Fin 16)} {f f' : Block → Block} (hf : ActsWithin S f) (hf' : ActsWithin S' f')
    (hdisj : S.Disjoint S') (v : Block) {k : Fin 16} (hk : k ∈ S) : (f (f' v))[k] = (f v)[k] ∧ (f' (f v))[k] = (f v)[k] :=
  ⟨hf.congr _ _ (fun _ hj => hf'.frame v _ (hdisj hj)) k hk, hf'.frame (f v) k (hdisj hk)⟩

theorem ActsWithin.comm {S S' : List (Fin 16)} {f f' : Block → Block} (hf : ActsWithin S f) (hf' : ActsWithin S' f')
    (hdisj : S.Disjoint S') (v : Block) : f' (f v) = f (f' v) := by
  have hword (k : Fin 16) : (f' (f v))[k] = (f (f' v))[k] := by
    by_cases hk : k ∈ S
    · obtain ⟨h, h'⟩ := hf.comp_getElem hf' hdisj v hk
      rw [h, h']
    by_cases hk' : k ∈ S'
    · obtain ⟨h, h'⟩ := hf'.comp_getElem hf hdisj.symm v hk'
      rw [h, h']
    · rw [hf'.frame _ k hk', hf.frame _ k hk, hf.frame _ k hk, hf'.frame _ k hk']
  exact Vector.ext fun i hi => hword ⟨i, hi⟩

/-- Settles O27: each call of G reads and writes only its own four words. -/
theorem quarterRoundsOnDisjointWordsCommute : Obligations.QuarterRoundsOnDisjointWordsCommute :=
  fun v a b c d a' b' c' d' mx my mx' my' hdisj =>
    (actsWithin_g a b c d mx my).comm (actsWithin_g a' b' c' d' mx' my') hdisj v

/-! ### The message schedule -/

/-- The words of a vector, position by position. -/
theorem toList_eq_ofFn {n : Nat} (v : Vector Word n) : v.toList = List.ofFn fun i : Fin n => v[i] :=
  (congrArg Vector.toList Vector.ofFn_getElem.symm).trans Vector.toList_ofFn

/-- Settles O30: `MSG_PERM` is injective, so a permutation of the 16 positions. -/
theorem permuteRearrangesTheWords : Obligations.PermuteRearrangesTheWords := by
  intro m
  have hinj : Function.Injective fun i : Fin 16 => msgPerm[i] := by decide
  have hperm := Equiv.Perm.ofFn_comp_perm (.ofBijective _ (Finite.injective_iff_bijective.mp hinj)) fun i => m[i]
  rw [permute, Vector.toList_ofFn, toList_eq_ofFn m]
  exact hperm

/-- Round 0 uses the block as it is (40_compression.md R106). -/
theorem scheduleOf_zero (m : Block) : scheduleOf m 0 = m := by
  have htable : ∀ i : Fin 16, scheduleTable[(0 : Fin 7)][i] = i := by decide
  simp only [scheduleOf, htable]
  exact Vector.ofFn_getElem

/-- Each further row of the table is the row before it, permuted (40_compression.md R102, R105, R106). -/
theorem scheduleOf_succ (m : Block) (r : Fin 6) : scheduleOf m r.succ = permute (scheduleOf m r.castSucc) := by
  have htable : ∀ (r : Fin 6) (i : Fin 16), scheduleTable[r.succ][i] = scheduleTable[r.castSucc][msgPerm[i]] := by decide
  refine Vector.ext fun i hi => ?_
  simp only [scheduleOf, permute, Fin.getElem_fin, Vector.getElem_ofFn]
  exact congrArg (fun k : Fin 16 => m[k]) (htable r ⟨i, hi⟩)

theorem scheduleOf_eq_iterate (m : Block) (r : Fin 7) : scheduleOf m r = permute^[r.val] m := by
  induction r using Fin.induction with
  | zero => exact scheduleOf_zero m
  | succ r ih => rw [scheduleOf_succ, ih, Fin.val_succ, Function.iterate_succ_apply', Fin.val_castSucc]

/-- The rounds, one after the other, each with the schedule permuted as often as there are rounds before it
(40_compression.md R107). -/
theorem mixRounds_eq_foldl : ∀ (n : Nat) (v m : Block),
    mixRounds n v m = (List.range n).foldl (fun v r => mixRound v (permute^[r] m)) v
  | 0, _, _ | 1, _, _ => rfl
  | n + 2, v, m => by
    rw [mixRounds, mixRounds_eq_foldl (n + 1), List.range_succ_eq_map (n := n + 1), List.foldl_cons, List.foldl_map]
    rfl

theorem mixRound_eq_roundOf (v m : Block) : mixRound v m = roundOf v m := rfl

/-- Settles O28: a round by its definition, the seven rounds by the table's rows as repeated permutations. -/
theorem roundsFollowTheScheduleTable : Obligations.RoundsFollowTheScheduleTable := by
  refine ⟨mixRound_eq_roundOf, fun v m => ?_⟩
  simp only [mixRounds_eq_foldl, scheduleOf_eq_iterate, mixRound_eq_roundOf, ← List.map_coe_finRange_eq_range, List.foldl_map]

/-! ### The compression -/

/-- The words of the initial state, in order (30_encoding.md R81). -/
theorem initialState_toList (cv : CV) (blen : Fin 65) (ctr : BitVec 64) (flags : Word) :
    (initialState cv blen ctr flags).toList = cv.toList ++ [0x6A09E667, 0xBB67AE85, 0x3C6EF372, 0xA54FF53A] ++
      [ctr.extractLsb' 0 32, ctr.extractLsb' 32 32, BitVec.ofNat 32 blen.val, flags] := by
  rw [toList_eq_ofFn cv]
  rfl

/-- Both halves of the output (40_compression.md R107; 30_encoding.md R84). -/
theorem foldState_getElem (v : Block) (cv : CV) (i : Nat) (h : i < 8) :
    (foldState v cv)[i] = v[i] ^^^ v[i + 8] ∧ (foldState v cv)[i + 8] = v[i + 8] ^^^ cv[i] := by
  interval_cases i <;> exact ⟨rfl, rfl⟩

theorem cvOf_toList (out : Block) : (cvOf out).toList = out.toList.take 8 := by
  rw [toList_eq_ofFn out]
  rfl

/-- Settles O29: the initial state and the last loop word by word, the rounds by the schedule table. -/
theorem compressRunsSevenRoundsAndFeedsForward : Obligations.CompressRunsSevenRoundsAndFeedsForward := by
  refine ⟨fun cv block blen ctr flags => ?_, cvOf_toList, fun o => cvOf_toList _⟩
  refine ⟨initialState cv blen ctr flags, _, initialState_toList cv blen ctr flags, rfl, fun i h => ?_⟩
  rw [← roundsFollowTheScheduleTable.2]
  exact foldState_getElem _ cv i h

end Sys2Proof.Machine

/-! Proofs about the chunk accumulator (41_chunk.md): `chunk_update` on a whole byte sequence, and the copy of bytes that fit the
block buffer. -/

namespace Sys2Proof.Machine

/-- Settles O31: both are the same bytes, taken one at a time. -/
theorem chunkUpdatesConcatenate : Obligations.ChunkUpdatesConcatenate :=
  fun sflags c d₁ d₂ => (c.update_append sflags d₁ d₂).symm

/-- Input never leaves the buffer empty: its last byte is stored after any compression (41_chunk.md R126). -/
theorem Chunk.update_csBlen_pos (sflags : Word) (c : Chunk) (d : List Byte) (hd : d ≠ []) : 1 ≤ (c.update sflags d).csBlen.val := by
  rcases d.eq_nil_or_concat with hnil | ⟨front, last, rfl⟩
  · exact absurd hnil hd
  · rw [List.concat_eq_append, Chunk.update_append, Chunk.update_singleton, Chunk.absorbByte_csBlen]
    omega

/-- Settles O32: each byte makes the chunk one byte longer, and the last one stays in the buffer. -/
theorem chunkUpdateGrowsByItsBytes : Obligations.ChunkUpdateGrowsByItsBytes :=
  fun sflags c d h => ⟨c.update_len sflags d h, c.update_csCtr sflags d, c.update_csBlen_pos sflags d⟩

/-! ### Bytes that fit the buffer -/

theorem Chunk.room_of_fits (c : Chunk) (n : Nat) (h : c.csBlen.val + n ≤ 64) : c.room n = n := by
  unfold Chunk.room
  omega

/-- Unlike `Chunk.update_fits`, of the buffer as it stands, which may already be full if there are no bytes. -/
theorem Chunk.update_eq_copyIn (sflags : Word) (c : Chunk) (d : List Byte) (h : c.csBlen.val + d.length ≤ 64) :
    c.update sflags d = c.copyIn d := by
  rw [← c.copyIn_update sflags d, c.room_of_fits _ h, List.drop_length, Chunk.update_nil]

theorem Chunk.copyIn_csBuf_getElem (c : Chunk) (d : List Byte) (h : c.csBlen.val + d.length ≤ 64) (a : Fin 64) :
    (c.copyIn d).csBuf[a] =
      if c.csBlen.val ≤ a.val ∧ a.val < c.csBlen.val + d.length then d.getD (a.val - c.csBlen.val) 0 else c.csBuf[a] := by
  rw [Chunk.copyIn_csBuf, c.room_of_fits _ h, List.take_length]
  exact memWrite_getElem _ _ _ _ a.isLt

/-- Settles O33: the whole update is one copy. -/
theorem bytesThatFitTheBufferAreOnlyStored : Obligations.BytesThatFitTheBufferAreOnlyStored := by
  intro sflags c d h
  refine ⟨c.copyIn d, c.update_eq_copyIn sflags d h, c.copyIn_csCv d, c.copyIn_csCtr d, c.copyIn_csBcomp d, ?_,
    c.copyIn_csBuf_getElem d h⟩
  rw [Chunk.copyIn_csBlen_val, c.room_of_fits _ h]

/-! ### A byte after a full buffer -/

/-- A buffer without valid bytes takes a byte at address 0. -/
theorem Chunk.copyIn_singleton_of_empty (c : Chunk) (b : Byte) (h : c.csBlen.val = 0) :
    (c.copyIn [b]).csBlen.val = 1 ∧ ∀ a : Fin 64, (c.copyIn [b]).csBuf[a] = if a.val = 0 then b else c.csBuf[a] := by
  have hfits : c.csBlen.val + [b].length ≤ 64 := by rw [h, List.length_singleton]; omega
  constructor
  · rw [Chunk.copyIn_csBlen_val, c.room_of_fits _ hfits, h, List.length_singleton]
  · intro a
    rw [c.copyIn_csBuf_getElem [b] hfits, h, List.length_singleton]
    rcases Nat.eq_zero_or_pos a.val with ha | ha
    · simp [ha]
    · rw [if_neg (by omega), if_neg (by omega)]

/-- Settles O34: the byte makes room by compressing the block, and is copied into the cleared buffer. -/
theorem byteAfterAFullBufferCompressesIt : Obligations.ByteAfterAFullBufferCompressesIt := by
  intro sflags c b hfull hbcomp
  have hupdate : c.update sflags [b] = (c.compressBlock sflags).copyIn [b] := by
    rw [Chunk.update_singleton, Chunk.absorbByte, c.makeRoom_full sflags hfull]
  obtain ⟨hblen, hbuf⟩ := (c.compressBlock sflags).copyIn_singleton_of_empty b rfl
  refine ⟨_, hupdate, ?_, ?_, ?_, hblen, fun a => ?_⟩
  · rw [Chunk.copyIn_csCv, Chunk.compressBlock_csCv]
    rfl
  · rw [Chunk.copyIn_csCtr, Chunk.compressBlock_csCtr]
  · rw [Chunk.copyIn_csBcomp, Chunk.compressBlock_csBcomp, Fin.val_add]
    omega
  · rw [hbuf a, Chunk.compressBlock_csBuf, Fin.getElem_fin, Vector.getElem_replicate]

end Sys2Proof.Machine

/-! The input loop as a fold over the bytes, the completion of a chunk within the input bound, and `ABSORB` with the splitting of a
message over several of them (10_state.md R33; 42_tree.md R141, R142, R144, R147). -/

namespace Sys2Proof.Machine

/-! ### Bytes in sequence -/

/-- Settles O35, by induction on the bytes: `input_data` takes off one byte at a time, faults included. -/
theorem inputDataIsByteAtATime : Obligations.InputDataIsByteAtATime := by
  intro ses d
  induction d generalizing ses with
  | nil => rfl
  | cons b d ih =>
    rw [Session.inputData_cons, List.foldlM_cons]
    exact congrArg (ses.absorbByte b >>= ·) (funext ih)

/-- `input_data` of two byte sequences in a row is that of their concatenation. -/
theorem Session.inputData_append (ses : Session) (d₁ d₂ : List Byte) :
    ses.inputData (d₁ ++ d₂) = ses.inputData d₁ >>= fun ses' => ses'.inputData d₂ := by
  simp only [inputDataIsByteAtATime _ _, List.foldlM_append]

/-! ### The completion of a chunk -/

/-- Merging writes no entry below the one it pushes. -/
theorem Session.mergeLoop_stk_below {k : Nat} {ses ses' : Session} {cv : CV} {total : BitVec 64}
    (h : Session.mergeLoop k ses cv total = .ok ses') (d : Nat) (hd : d + 1 < ses'.stkDepth.val) : ses'.stk[d]? = ses.stk[d]? := by
  induction k generalizing ses cv total with
  | zero => cases h
  | succ k ih =>
    rcases Session.mergeLoop_cases h with ⟨-, hpush⟩ | ⟨-, left, ses₁, hpop, hloop⟩
    · obtain ⟨hcap, rfl⟩ := Session.push_cases hpush
      exact Vector.getElem?_set_ne hcap (Nat.ne_of_gt (Nat.lt_of_succ_lt_succ hd))
    · obtain ⟨-, -, -, -, -, hstk⟩ := Session.pop_cases hpop
      rw [ih hloop, hstk]

/-- Settles O39: pass by pass the loop pops for each trailing 0 of `total` and pushes at its lowest 1. -/
theorem mergingKeepsTheStackDepth : Obligations.MergingKeepsTheStackDepth := by
  intro ses cv total hpos hmax hdepth
  rw [popcount, BitVec.toNat_sub_of_le hpos] at hdepth
  obtain ⟨ses', hmerge⟩ := Session.mergeLoop_ok (cv := cv) hpos hmax hdepth (Nat.lt_succ_self _)
  obtain ⟨hkey, hflags, hchunk⟩ := Session.mergeLoop_frame hmerge
  refine ⟨ses', hmerge, Session.mergeLoop_depth hpos hdepth hmerge, hkey, hflags, hchunk, fun d hd => ?_⟩
  simpa using Session.mergeLoop_stk_below hmerge d.val hd

/-- A legal session below `MAX_INPUT` makes room without a fault (42_tree.md R147). -/
theorem Session.Legal.makeRoom_ok {ses : Session} (h : ses.Legal) (hlt : ses.totalAbsorbed < 2 ^ 64) :
    ∃ ses', ses.makeRoom = .ok ses' := by
  rcases Nat.lt_or_eq_of_le ses.chunk.len_le with hroom | hfull
  · exact ⟨ses, ses.makeRoom_of_lt hroom⟩
  · rw [Session.totalAbsorbed, hfull] at hlt
    have hnext : (ses.chunk.csCtr + 1).toNat = ses.chunk.csCtr.toNat + 1 := toNat_add_one _ (by omega)
    have hdepth : ses.stkDepth.val = popcount (ses.chunk.csCtr + 1 - 1) := by rw [BitVec.add_sub_cancel]; exact h.depth
    obtain ⟨merged, hmerge, -⟩ :=
      mergingKeepsTheStackDepth ses (outputCv ses.chunkOutput) (ses.chunk.csCtr + 1) (by omega) (by omega) hdepth
    exact ⟨_, by rw [Session.makeRoom, if_pos hfull, Session.completeChunk, hmerge]⟩

/-! ### `ABSORB` -/

/-- A legal session absorbs every byte within `MAX_INPUT`, and counts it (42_tree.md R141). -/
theorem Session.Legal.inputData_ok {ses : Session} (h : ses.Legal) (d : List Byte)
    (hmax : ses.totalAbsorbed + d.length ≤ 2 ^ 64) :
    ∃ ses', ses.inputData d = .ok ses' ∧ ses'.totalAbsorbed = ses.totalAbsorbed + d.length := by
  induction d generalizing ses with
  | nil => exact ⟨ses, ses.inputData_nil, rfl⟩
  | cons b d ih =>
    rw [List.length_cons] at hmax
    obtain ⟨ses₁, hroom⟩ := h.makeRoom_ok (by omega)
    have hbyte := Session.absorbByte_ok (b := b) hroom
    obtain ⟨hlegal, hcount⟩ := h.absorbByte (by omega) hbyte
    obtain ⟨ses', hrest, htotal⟩ := ih hlegal (by omega)
    refine ⟨ses', ?_, by rw [List.length_cons]; omega⟩
    rw [Session.inputData_cons, hbyte]
    exact hrest

/-- Settles O36: the input loop of a legal session does not fault, and the command writes the session, `RESULT` and `CP`. -/
theorem absorbCompletesAndAddsItsBytes : Obligations.AbsorbCompletesAndAddsItsBytes := by
  intro s len pw hpw hvalid hlegal hmax
  have hlength : (payloadBytes len pw).length = len.toNat := payloadBytes_length (by omega)
  obtain ⟨ses', hdata, htotal⟩ := hlegal.inputData_ok (payloadBytes len pw) (by omega)
  obtain ⟨hkey, hflags⟩ := Session.inputData_frame hdata
  rw [hlength] at htotal
  exact ⟨_, execAbsorb_ok len pw s ses' hvalid hmax hdata, hdata, htotal, hkey, hflags, rfl⟩

/-- The payload of a well-formed `ABSORB`, in words and in bytes (30_encoding.md R71, R74). -/
theorem absorb_payload_length {len : BitVec 64} {pw : List Word} (h : (Instr.absorb len pw).WellFormed) :
    pw.length = (len.toNat + 3) / 4 ∧ (payloadBytes len pw).length = len.toNat := by
  have hpw : pw.length = (len.toNat + 3) / 4 := beq_iff_eq.mp h
  exact ⟨hpw, payloadBytes_length (by omega)⟩

/-- Settles O38: each of the three commands completes, and the input loop takes the second payload where it left off after the
first. -/
theorem absorbsConcatenate : Obligations.AbsorbsConcatenate := by
  intro s len₁ len₂ len pw₁ pw₂ pw hwf₁ hwf₂ hwf hbytes hvalid hlegal hmax
  obtain ⟨hpw₁, hlen₁⟩ := absorb_payload_length hwf₁
  obtain ⟨hpw₂, hlen₂⟩ := absorb_payload_length hwf₂
  obtain ⟨hpw, hlen⟩ := absorb_payload_length hwf
  rw [hbytes, List.length_append, hlen₁, hlen₂] at hlen
  obtain ⟨t₁, hexec₁, hdata₁, htotal₁, -, -, ht₁⟩ :=
    absorbCompletesAndAddsItsBytes s len₁ pw₁ hpw₁ hvalid hlegal (by omega)
  have hvalid₁ : t₁.engineValid = true := by rw [ht₁]; exact hvalid
  have hlegal₁ : t₁.session.Legal := hlegal.inputData (by omega) hdata₁
  obtain ⟨t₂, hexec₂, hdata₂, -, -, -, ht₂⟩ :=
    absorbCompletesAndAddsItsBytes t₁ len₂ pw₂ hpw₂ hvalid₁ hlegal₁ (by omega)
  obtain ⟨t, hexec, hdata, -, -, -, ht⟩ := absorbCompletesAndAddsItsBytes s len pw hpw hvalid hlegal hmax
  rw [hbytes, Session.inputData_append, hdata₁] at hdata
  have hsame : t₂.session = t.session := Except.ok.inj (hdata₂.symm.trans hdata)
  exact ⟨t₁, t₂, t, hexec₁, hexec₂, hexec, by rw [ht₁], by rw [ht₂], by rw [ht], hsame⟩

end Sys2Proof.Machine

/-! The root that a squeeze folds from the current chunk and the stack is the root of the message's tree (42_tree.md R148;
43_output.md R163). -/

namespace Sys2Proof.Machine

/-- Up to as many chunks again after a complete subtree make it the left child of the tree over them all. -/
theorem treeOutput_two_pow_add (key : CV) (sflags : Word) (m : List Byte) {level count : Nat} (first : Nat) (hpos : 1 ≤ count)
    (hle : count ≤ 2 ^ level) :
    treeOutput key sflags m (2 ^ level + count) first (2 ^ level + count) = parentOutput key sflags
      (subtreeCv key sflags m level first) (outputCv (treeOutput key sflags m count (first + 2 ^ level) count)) := by
  have hdouble : 2 ^ (level + 1) = 2 * 2 ^ level := Nat.pow_succ'
  obtain ⟨k, hk⟩ : ∃ k, 2 ^ level + count = k + 1 := ⟨2 ^ level + count - 1, by omega⟩
  have hlog : k.log2 = level := (Nat.log2_eq_iff (by omega)).mpr ⟨by omega, by omega⟩
  rw [hk, treeOutput, if_neg (by omega)]
  simp only [Nat.add_sub_cancel, hlog]
  rw [treeOutput_enough key sflags m k (2 ^ level) first _ (by omega) (by omega), show k + 1 - 2 ^ level = count by omega,
    treeOutput_enough key sflags m k count _ _ (by omega) (by omega), subtreeCv]

/-- Folding the subtrees of `q`, each of height `level` or more, into the tree over the `count` chunks after them gives the tree
over all chunks from the first on. -/
theorem Session.HoldsSubtrees.foldStack {ses : Session} {m : List Byte} {level q : Nat} (h : ses.HoldsSubtrees m level q)
    (hq : q < 2 ^ 64) {count : Nat} (hpos : 1 ≤ count) (hle : count ≤ 2 ^ level) {d : Nat} (hd : d = bitCount 64 q)
    (h54 : d ≤ 54) :
    ses.foldStack d h54 (treeOutput ses.key ses.sflags m count (q * 2 ^ level) count) =
      treeOutput ses.key ses.sflags m (q * 2 ^ level + count) 0 (q * 2 ^ level + count) := by
  induction q using Nat.evenOddRec generalizing level count d with
  | h0 =>
    have hd0 : d = 0 := hd
    subst hd0
    rw [Nat.zero_mul, Nat.zero_add]
    rfl
  | h_even p ih =>
    rw [bitCount_double p (by omega)] at hd
    rw [Session.holdsSubtrees_double_iff] at h
    rw [show 2 * p * 2 ^ level = p * 2 ^ (level + 1) by ring]
    exact ih h (by omega) hpos (by rw [Nat.pow_succ]; omega) hd h54
  | h_odd p ih =>
    rw [bitCount_double_add_one p (by omega)] at hd
    subst hd
    rw [Session.holdsSubtrees_double_add_one_iff] at h
    obtain ⟨hentry, h⟩ := h
    rw [Vector.getElem?_eq_getElem (by omega), show 2 * p * 2 ^ level = p * 2 ^ (level + 1) by ring] at hentry
    rw [Session.foldStack, Option.some.inj hentry, show (2 * p + 1) * 2 ^ level = p * 2 ^ (level + 1) + 2 ^ level by ring,
      ← treeOutput_two_pow_add _ _ _ _ hpos hle, Nat.add_assoc]
    exact ih h (by omega) (by omega) (by rw [Nat.pow_succ]; omega) rfl _

/-- The current chunk is the last of the message's chunks. -/
theorem Session.Represents.chunkCount_eq {ses : Session} {m : List Byte} (h : ses.Represents m) :
    chunkCount m = ses.chunk.csCtr.toNat + 1 := by
  have hroom := h.room
  have hpending : ses.chunk.csCtr.toNat ≠ 0 → 1024 * ses.chunk.csCtr.toNat < m.length := fun hctr =>
    h.pending fun h0 => hctr (by rw [h0]; rfl)
  unfold chunkCount
  omega

/-- Settles O42: the current chunk is the tree over the last chunk alone, and each stack entry, newest first, is the complete
subtree to its left. -/
theorem rootOutputIsTheRootOfTheTree : Obligations.RootOutputIsTheRootOfTheTree := by
  intro ses m h
  have hholds := (ses.holdsSubtrees_iff_entries m ses.chunk.csCtr).mpr h.entries
  have hleaf : ses.chunkOutput = treeOutput ses.key ses.sflags m 1 (ses.chunk.csCtr.toNat * 2 ^ 0) 1 := by
    rw [h.chunkOutput_eq, treeOutput, if_pos (Nat.le_refl 1), Nat.pow_zero, Nat.mul_one]
  rw [Session.rootOutput, hleaf, hholds.foldStack (BitVec.isLt _) (Nat.le_refl 1) (Nat.le_refl 1) h.depth, Nat.pow_zero,
    Nat.mul_one, treeRoot, h.chunkCount_eq]

end Sys2Proof.Machine

/-! What a squeeze appends, byte by byte, and the shape of the root Output it reads (41_chunk.md R127; 42_tree.md R145;
43_output.md R162 to R167). -/

namespace Sys2Proof.Machine

/-! ### The words of a squeeze -/

/-- Byte `k` of `bytes_le` with zeros after its end, word by word (00_scope.md R13). -/
theorem bytesLe_getD (ws : List Word) (k : Nat) : (bytesLe ws).getD k 0 = (ws.getD (k / 4) 0).extractLsb' (8 * (k % 4)) 8 := by
  rcases Nat.lt_or_ge k (4 * ws.length) with hk | hk
  · rw [List.getD_eq_getElem?_getD, bytesLe_getElem? ws k hk, List.getD_eq_getElem _ _ (show k / 4 < ws.length by omega),
      List.getElem?_eq_getElem (show k / 4 < ws.length by omega)]
    rfl
  · rw [List.getD_eq_default _ _ (by rwa [bytesLe_length]), List.getD_eq_default _ _ (by omega)]
    exact BitVec.extractLsb'_zero.symm

/-- Byte `j` of packed bytes is the byte packed, and a pad byte is zero (43_output.md R166). -/
theorem bytesLe_packBytes_getD (bs : List Byte) (j : Nat) : (bytesLe (packBytes bs)).getD j 0 = bs.getD j 0 := by
  rw [bytesLe_packBytes]
  rcases Nat.lt_or_ge j bs.length with hj | hj
  · exact List.getD_append _ _ _ _ hj
  · rw [List.getD_append_right _ _ _ _ hj, List.getD_eq_default _ _ hj]
    exact List.getElem?_getD_replicate_default_eq 0 _ _

/-- Byte `j` of `root_output_bytes(o, n)` is read from word `floor((j mod 64)/4)` of output block `floor(j/64)`, and there is none
from `n` on (43_output.md R162). -/
theorem rootOutputBytes_getD (o : Output) (n j : Nat) : (rootOutputBytes o n).getD j 0 =
    if j < n then
      ((compress o.cv o.block o.blen (BitVec.ofNat 64 (j / 64)) (o.flags ||| flagRoot)).toList.getD (j % 64 / 4) 0).extractLsb'
        (8 * (j % 4)) 8
    else 0 := by
  split
  · next hj =>
    rw [List.getD_eq_getElem?_getD, rootOutputBytes_getElem? o n j hj, ← List.getD_eq_getElem?_getD, rootBlockBytes, bytesLe_getD,
      show j % 64 % 4 = j % 4 by omega]
  · next hj => exact List.getD_eq_default _ _ (by rw [rootOutputBytes_length]; omega)

/-- Settles O43: the words packed from the root output bytes, read back byte by byte. -/
theorem squeezeEmitsTheRootOutputBytes : Obligations.SqueezeEmitsTheRootOutputBytes := by
  intro s len hvalid
  refine ⟨packBytes (rootOutputBytes s.session.rootOutput len.toNat), execSqueeze_ok len s hvalid, ?_, fun j _ => ?_⟩
  · rw [packBytes_length, rootOutputBytes_length]
  · rw [← bytesLe_getD, bytesLe_packBytes_getD]
    exact rootOutputBytes_getD _ _ _

/-- The first `n` bytes of a longer root output are the root output of `n` bytes (43_output.md R167). -/
theorem rootOutputBytes_take (o : Output) {n m : Nat} (h : n ≤ m) : (rootOutputBytes o m).take n = rootOutputBytes o n := by
  have hlen : ((rootOutputBytes o m).take n).length = (rootOutputBytes o n).length := by simp [h]
  refine List.ext_getElem?' fun j hj => ?_
  have hjn : j < n := by simpa [h] using hj
  rw [List.getElem?_take_of_lt hjn, rootOutputBytes_getElem? o m j (by omega), rootOutputBytes_getElem? o n j hjn]

/-- The first `n` bytes that a `SQUEEZE` of `m` bytes appends are the root output of `n` bytes. -/
theorem take_bytesLe_packBytes_rootOutputBytes (o : Output) {n m : Nat} (h : n ≤ m) :
    (bytesLe (packBytes (rootOutputBytes o m))).take n = rootOutputBytes o n := by
  rw [bytesLe_packBytes, List.take_append_of_le_length (by rwa [rootOutputBytes_length]), rootOutputBytes_take o h]

/-- Settles O44: both are the root output of `n` bytes. -/
theorem shorterSqueezeIsAPrefix : Obligations.ShorterSqueezeIsAPrefix := by
  intro s n m hvalid hle
  refine ⟨_, _, execSqueeze_ok n s hvalid, execSqueeze_ok m s hvalid, ?_⟩
  simp only [State.finishOk_out, State.emit_out, List.drop_left]
  rw [take_bytesLe_packBytes_rootOutputBytes _ (Nat.le_refl _), take_bytesLe_packBytes_rootOutputBytes _ hle]

/-! ### The root Output -/

/-- `LE32` puts its first byte lowest (00_scope.md R13). -/
theorem le32_eq_append (b0 b1 b2 b3 : Byte) : le32 b0 b1 b2 b3 = b3 ++ b2 ++ b1 ++ b0 := by
  have hreverse (w0 w1 w2 w3 : Word) : w0 ||| w1 ||| w2 ||| w3 = w3 ||| w2 ||| w1 ||| w0 := by ac_rfl
  have happend := BitVec.setWidth_append_append_append_eq_shiftLeft_setWidth_or (w'''' := 32) (b := b3) (b' := b2) (b'' := b1)
    (b''' := b0)
  rw [BitVec.setWidth_eq] at happend
  rw [happend]
  exact hreverse _ _ _ _

/-- The flags of the current chunk as an Output (41_chunk.md R127). -/
theorem Session.chunkOutput_flags (ses : Session) :
    ses.chunkOutput.flags = ses.sflags ||| (if ses.chunk.csBcomp.val = 0 then 0x03 else 0x02) := by
  have hflags : ses.chunkOutput.flags = ses.sflags ||| (ses.chunk.startFlag ||| flagChunkEnd) := BitVec.or_assoc _ _ _
  rw [hflags, Chunk.startFlag]
  split <;> rfl

/-- The block of a parent (30_encoding.md R83). -/
theorem parentOutput_block_toList (key : CV) (sflags : Word) (l r : CV) :
    (parentOutput key sflags l r).block.toList = l.toList ++ r.toList := by
  rw [toList_eq_ofFn l, toList_eq_ofFn r]
  rfl

/-- The fold over the lowest `d` stack entries, the top one first (43_output.md R163). -/
theorem Session.foldStack_eq_foldr (ses : Session) (d : Nat) (h54 : d ≤ 54) (o : Output) : ses.foldStack d h54 o =
    (ses.stk.toList.take d).foldr (fun entry o => parentOutput ses.key ses.sflags entry (outputCv o)) o := by
  induction d generalizing o with
  | zero => rfl
  | succ d ih =>
    rw [Session.foldStack, ih, List.take_succ_eq_append_getElem (by simpa using h54), List.foldr_append]
    rfl

/-- The root is the current chunk alone or a parent (43_output.md R163). -/
theorem Session.rootOutput_eq_or_parent (ses : Session) :
    ses.rootOutput = ses.chunkOutput ∨ ∃ l r, ses.rootOutput = parentOutput ses.key ses.sflags l r := by
  rw [Session.rootOutput, Session.foldStack_eq_foldr]
  cases ses.stk.toList.take ses.stkDepth.val with
  | nil => exact .inl rfl
  | cons entry entries => exact .inr ⟨entry, _, rfl⟩

/-- The flags of a session with those of a node in it are neither `ROOT` nor above bit 6 (30_encoding.md R79, R80). -/
theorem nodeFlags_clear : ∀ sflags ∈ [(0 : Word), 0x10, 0x20, 0x40], ∀ node ∈ [(0x02 : Word), 0x03, 0x04],
    (sflags ||| node) &&& 0x08 = 0 ∧ (sflags ||| node) >>> 7 = 0 := by simp

/-- Settles O45, each Output by its fields, and the root as the current chunk or a parent by its fold. -/
theorem rootOutputShapeAndFlags : Obligations.RootOutputShapeAndFlags := by
  intro ses
  refine ⟨⟨rfl, rfl, rfl, rfl, ses.chunkOutput_flags, fun i h => ?_⟩, fun l r => ?_, ?_, fun hflags => ?_⟩
  · exact (blockWords_getElem _ i h).trans (le32_eq_append _ _ _ _)
  · exact ⟨rfl, parentOutput_block_toList _ _ l r, rfl, rfl, rfl⟩
  · exact ses.foldStack_eq_foldr _ _ _
  · have hclear := nodeFlags_clear ses.sflags (by simpa using hflags)
    have hchunk : ses.chunkOutput.flags &&& 0x08 = 0 ∧ ses.chunkOutput.flags >>> 7 = 0 := by
      rw [ses.chunkOutput_flags]
      split
      · exact hclear 0x03 (by decide)
      · exact hclear 0x02 (by decide)
    have hparent := hclear 0x04 (by decide)
    rintro o (rfl | rfl | ⟨l, r, rfl⟩)
    · exact hchunk
    · obtain hroot | ⟨l, r, hroot⟩ := ses.rootOutput_eq_or_parent
      · rw [hroot]; exact hchunk
      · rw [hroot]; exact hparent
    · exact hparent

end Sys2Proof.Machine

/-! The mode constructors and `RESET`: the session just constructed, what each constructor leaves, and that a construction and a
`RESET` leave nothing of what went before (44_modes.md R181 to R186). -/

namespace Sys2Proof.Machine

/-! ### A session just constructed -/

theorem popcount_zero : popcount 0 = 0 := rfl

/-- A session just constructed holds the empty message (44_modes.md R181). -/
theorem Session.represents_init (ses : Session) (k : CV) (f : Word) : (ses.init k f).Represents [] where
  bound := Nat.zero_le _
  complete := by simp
  pending := fun h => absurd rfl h
  room := Nat.zero_le _
  chunk := by simp
  depth := popcount_zero.symm
  entries := fun b _ hb => by simp at hb

/-- Settles O41, register by register. -/
theorem freshSessionHoldsTheEmptyMessage : Obligations.FreshSessionHoldsTheEmptyMessage :=
  ⟨fun _ _ => ⟨rfl, rfl, fun a => by simp, rfl, rfl⟩, fun ses k f => ⟨ses.represents_init k f, rfl, rfl, rfl, rfl⟩⟩

/-! ### `INIT_HASH` and `RESET` -/

/-- Settles O19, from the equation of the meaning. -/
theorem initHashStartsAPlainSession : Obligations.InitHashStartsAPlainSession :=
  ⟨rfl, fun s => ⟨_, execInitHash_eq s, rfl, rfl, rfl, rfl, fun a => by simp, rfl, rfl, rfl, rfl⟩⟩

/-- Settles O23, with a session and without one. -/
theorem resetKeepsKeyAndFlags : Obligations.ResetKeepsKeyAndFlags :=
  ⟨rfl, fun s hvalid => ⟨_, execReset_ok s hvalid, rfl, rfl, rfl, rfl, rfl⟩, fun s hvalid => execReset_noEngine s hvalid⟩

/-! ### `INIT_KEYED_HASH` -/

/-- Eight words are the words of the key they make (44_modes.md R183). -/
theorem cvOfWords_toList {ws : List Word} (h : ws.length = 8) : (cvOfWords ws).toList = ws := by
  refine List.ext_getElem (by simp [h]) fun i _ hi => ?_
  simp [cvOfWords, hi]

/-- A payload whose `LEN` has no pad bytes is all the bytes of its words (30_encoding.md R74). -/
theorem payloadBytes_of_no_pad {len : BitVec 64} {pw : List Word} (h : len.toNat = 4 * pw.length) :
    payloadBytes len pw = bytesLe pw :=
  List.take_of_length_le (by rw [bytesLe_length, h])

/-- Settles O20: 32 payload bytes are the bytes of eight words, and their words those eight again. -/
theorem initKeyedHashTakesTheEightPayloadWords : Obligations.InitKeyedHashTakesTheEightPayloadWords := by
  intro s pw hpw
  have hbytes : payloadBytes 32 pw = bytesLe pw := payloadBytes_of_no_pad (by rw [hpw]; rfl)
  refine ⟨_, execInitKeyedHash_ok 32 pw s rfl, ?_, rfl, rfl, rfl, rfl⟩
  change (cvOfWords (wordsLe (payloadBytes 32 pw))).toList = pw
  rw [hbytes, wordsLe_bytesLe, cvOfWords_toList hpw]

/-! ### `INIT_KDF` -/

/-- The key that a context gives: 32 bytes of root output of its tree, as words (44_modes.md R184; 42_tree.md R148). -/
def contextKey (context : List Byte) : CV :=
  cvOfWords (wordsLe (rootOutputBytes (treeRoot iv flagDeriveKeyContext context) 32))

/-- A session that holds a context derives the key of its tree (44_modes.md R184). -/
theorem Session.Represents.derivedKey {ses : Session} {context : List Byte} (h : ses.Represents context) (hkey : ses.key = iv)
    (hflags : ses.sflags = flagDeriveKeyContext) : ses.derivedKey = contextKey context := by
  rw [Session.derivedKey, rootOutputIsTheRootOfTheTree ses context h, hkey, hflags]
  rfl

/-- `INIT_KDF` completes: no context is too long for its session (44_modes.md R184). -/
theorem exec_initKdf (len : BitVec 64) (pw : List Word) (s : State) : ∃ ses : Session, exec (.initKdf len pw) s =
    .next ((s.startSession (ses.init (contextKey (payloadBytes len pw)) flagDeriveKeyMaterial)).finishOk
      (3 + (len.toNat + 3) / 4)) := by
  have hlen := payloadBytes_length_le len pw
  have hlt := len.isLt
  obtain ⟨context, hdata, hholds, hkey, hflags⟩ :=
    (s.session.represents_init iv flagDeriveKeyContext).inputData (payloadBytes len pw) (by rw [List.length_nil]; omega)
  rw [List.nil_append] at hholds
  rw [← hholds.derivedKey hkey hflags]
  exact ⟨context, execInitKdf_ok len pw s context hdata⟩

/-- Settles O22: the context session holds the context, so its root is the root of the context's tree. -/
theorem initKdfDerivesTheKeyFromTheContextTree : Obligations.InitKdfDerivesTheKeyFromTheContextTree := by
  intro s len pw _
  obtain ⟨ses, hexec⟩ := exec_initKdf len pw s
  exact ⟨_, hexec, cvOfWords_toList (by simp), rfl, rfl, rfl, rfl⟩

/-! ### Constructions -/

/-- A successful construction starts a session, and does so whether or not one existed (44_modes.md R181). -/
theorem exec_construction {i : Instr} {s t : State} (hop : i.op = .initHash ∨ i.op = .initKeyedHash ∨ i.op = .initKdf)
    (h : exec i s = .next t) (hok : t.result = .ok) :
    (∃ ses k f, t = (s.startSession (Session.init ses k f)).finishOk i.nWords) ∧
      ∀ valid, exec i { s with engineValid := valid } = .next t := by
  rcases exec_cases h with ⟨c, hc, rfl, -⟩ | ⟨rfl, rfl⟩ | ⟨len, pw, rfl, hlen, rfl⟩ | ⟨len, pw, context, rfl, hdata, rfl⟩ |
    ⟨len, pw, ses, rfl, -⟩ | ⟨len, rfl, -⟩ | ⟨rfl, -⟩
  · exact absurd hok hc
  · exact ⟨⟨_, _, _, rfl⟩, fun valid => h⟩
  · refine ⟨⟨_, _, _, rfl⟩, fun valid => ?_⟩
    rw [Instr.nWords_initKeyedHash, hlen]
    exact execInitKeyedHash_ok len pw { s with engineValid := valid } hlen
  · refine ⟨⟨_, _, _, rfl⟩, fun valid => ?_⟩
    rw [Instr.nWords_initKdf]
    exact execInitKdf_ok len pw { s with engineValid := valid } context hdata
  · simp at hop
  · simp at hop
  · simp at hop

/-- Settles O25: without a session nothing is read of the session registers, and a construction does not read whether there is
one. -/
theorem constructionDiscardsThePreviousSession : Obligations.ConstructionDiscardsThePreviousSession := by
  intro i s t valid other hop h hok
  have hlive : State.LiveEq { s with engineValid := false } { s with engineValid := false, session := other } :=
    ⟨rfl, rfl, rfl, rfl, rfl, rfl, fun hvalid => nomatch hvalid⟩
  have hagree := exec_agree i hlive
  obtain ⟨-, hanyway⟩ := exec_construction hop h hok
  rw [hanyway false] at hagree
  rcases hexec : exec i { s with engineValid := false, session := other } with u | f | r <;> rw [hexec] at hagree
  · obtain ⟨-, hresult, -⟩ := id hagree
    obtain ⟨-, hanyway'⟩ := exec_construction hop hexec (hresult.symm.trans hok)
    exact ⟨u, hanyway' valid, hagree⟩
  · exact hagree.elim
  · exact hagree.elim

/-! ### Commands in order -/

/-- The first command of a list, when it answers a next state. -/
theorem execAll_cons_next {i : Instr} {s t : State} (h : exec i s = .next t) (is : List Instr) :
    execAll (i :: is) s = execAll is t := by
  rw [execAll, h]

/-- What a list of commands did, when it answers a next state. -/
theorem execAll_cons_cases {i : Instr} {is : List Instr} {s t : State} (h : execAll (i :: is) s = .next t) :
    ∃ s', exec i s = .next s' ∧ execAll is s' = .next t := by
  rcases hexec : exec i s with s' | f | r <;> rw [execAll, hexec] at h
  · exact ⟨s', rfl, h⟩
  · cases h
  · cases h

/-- Commands that are no constructions keep the session's existence, its key and its flags (10_state.md R22, R23). -/
theorem execAll_keeps_mode {is : List Instr} {s t : State} (huse : ∀ i ∈ is, i.op = .absorb ∨ i.op = .squeeze ∨ i.op = .reset)
    (h : execAll is s = .next t) (hvalid : s.engineValid = true) :
    t.engineValid = true ∧ t.session.key = s.session.key ∧ t.session.sflags = s.session.sflags := by
  induction is generalizing s with
  | nil =>
    cases h
    exact ⟨hvalid, rfl, rfl⟩
  | cons i is ih =>
    obtain ⟨hi, his⟩ := List.forall_mem_cons.mp huse
    obtain ⟨s', hexec, hrest⟩ := execAll_cons_cases h
    have hmode : i.op = .absorb ∨ i.op = .squeeze ∨ i.op = .reset ∨ s'.result ≠ .ok := by tauto
    obtain ⟨hkey, hflags⟩ := (onlyConstructionWritesEngineValidKeyAndFlags i s s' hexec).2 hmode
    obtain ⟨hvalid', hkey', hflags'⟩ := ih his hrest (exec_engineValid_mono hexec hvalid)
    exact ⟨hvalid', hkey'.trans hkey, hflags'.trans hflags⟩

/-- Settles O24: the use keeps key and flags, and `RESET` constructs the session with them again. -/
theorem resetUndoesEverySessionUse : Obligations.ResetUndoesEverySessionUse := by
  intro i₀ is s t₀ t hop h₀ hok huse h
  obtain ⟨⟨ses, k, f, rfl⟩, -⟩ := exec_construction hop h₀ hok
  obtain ⟨hvalid, hkey, hflags⟩ := execAll_keeps_mode huse h rfl
  refine ⟨_, execReset_ok t hvalid, rfl, ?_⟩
  change (t.session.init t.session.key t.session.sflags).LiveEq (ses.init k f)
  rw [hkey, hflags]
  exact Session.liveEq_init t.session ses k f

end Sys2Proof.Machine

/-! The pseudo-commands as a construction, one `ABSORB` and one `SQUEEZE` (30_encoding.md R86; 44_modes.md R188 to R190). -/

namespace Sys2Proof.Machine

/-! ### Packed operands -/

theorem payloadBytes_packBytes {bs : List Byte} (h : bs.length < 2 ^ 64) : payloadBytes (lenOfBytes bs) (packBytes bs) = bs :=
  (packedPayloadReadsBack bs h).1

/-- Whole words need no pad bytes (43_output.md R166). -/
theorem packBytes_of_no_pad {bs : List Byte} (h : bs.length % 4 = 0) : packBytes bs = wordsLe bs := by
  rw [packBytes, h]
  exact congrArg wordsLe (List.append_nil bs)

/-! ### `ABSORB` and `SQUEEZE` after a construction -/

theorem Session.Represents.totalAbsorbed {ses : Session} {m : List Byte} (h : ses.Represents m) : ses.totalAbsorbed = m.length := by
  have hcomplete := h.complete
  rw [Session.totalAbsorbed, h.chunk_len]
  omega

/-- `ABSORB` of packed data into a session that holds `m` (42_tree.md R141). -/
theorem exec_absorbOf {s : State} {m data : List Byte} (hvalid : s.engineValid = true) (h : s.session.Represents m)
    (hlt : data.length < 2 ^ 64) (hmax : m.length + data.length ≤ 2 ^ 64) :
    ∃ ses, exec (absorbOf data) s = .next ((s.withSession ses).finishOk (3 + (data.length + 3) / 4)) ∧
      ses.Represents (m ++ data) ∧ ses.key = s.session.key ∧ ses.sflags = s.session.sflags := by
  obtain ⟨ses, hdata, hholds, hkey, hflags⟩ := h.inputData data hmax
  have hlen := lenOfBytes_toNat hlt
  refine ⟨ses, ?_, hholds, hkey, hflags⟩
  rw [← hlen]
  refine execAbsorb_ok _ _ s ses hvalid ?_ ?_
  · rwa [h.totalAbsorbed, hlen]
  · rwa [payloadBytes_packBytes hlt]

/-- `SQUEEZE` of a session, as a command (43_output.md R164). -/
theorem exec_squeeze {s : State} (h : s.engineValid = true) (n : BitVec 64) : exec (.squeeze n) s =
    .next ((s.emit (packBytes (rootOutputBytes s.session.rootOutput n.toNat))).finishOk 3) :=
  execSqueeze_ok n s h

/-- A construction, an `ABSORB` and a `SQUEEZE` append the root output of the data's tree, and leave the session holding the data
(44_modes.md R188 to R190; 42_tree.md R148). -/
theorem execAll_oneShot {i : Instr} {s : State} {ses : Session} {k : CV} {f : Word} {words : Nat}
    (hinit : exec i s = .next ((s.startSession (ses.init k f)).finishOk words)) {data : List Byte} (hlt : data.length < 2 ^ 64)
    (n : BitVec 64) : ∃ t, execAll [i, absorbOf data, .squeeze n] s = .next t ∧
      t.out = s.out ++ packBytes (rootOutputBytes (treeRoot k f data) n.toNat) ∧ t.result = .ok ∧ t.errSeen = s.errSeen ∧
      t.engineValid = true ∧ t.session.Represents data ∧ t.session.key = k ∧ t.session.sflags = f := by
  obtain ⟨ses', habsorb, hholds, hkey, hflags⟩ := exec_absorbOf (s := (s.startSession (ses.init k f)).finishOk words) rfl
    (ses.represents_init k f) hlt (by rw [List.length_nil]; omega)
  have hkey' : ses'.key = k := hkey
  have hflags' : ses'.sflags = f := hflags
  have hroot : ses'.rootOutput = treeRoot k f data := by rw [rootOutputIsTheRootOfTheTree ses' data hholds, hkey', hflags']
  rw [execAll_cons_next hinit, execAll_cons_next habsorb, ← hroot]
  exact ⟨_, execAll_cons_next (exec_squeeze rfl n) [], rfl, rfl, rfl, rfl, hholds, hkey', hflags'⟩

/-- A digest is whole words. -/
theorem packBytes_digest (o : Output) : packBytes (rootOutputBytes o 32) = wordsLe (rootOutputBytes o 32) :=
  packBytes_of_no_pad (by rw [rootOutputBytes_length])

/-- Settles O47: `INIT_HASH` is the construction. -/
theorem hashPseudoCommandGivesTheTreeDigest : Obligations.HashPseudoCommandGivesTheTreeDigest := by
  intro s data hlt
  have hinit : exec .initHash s = .next ((s.startSession (s.session.init iv 0)).finishOk 1) := execInitHash_eq s
  obtain ⟨t, hexec, hout, hresult, herr, hvalid, hholds, hkey, hflags⟩ := execAll_oneShot hinit hlt 32
  exact ⟨t, hexec, hout.trans (congrArg (s.out ++ ·) (packBytes_digest _)), hresult, herr, hvalid, hholds, hflags,
    congrArg Vector.toList hkey⟩

/-! ### `KEYED_HASH` and `DERIVE_KEY` -/

/-- `INIT_KEYED_HASH` of a packed key of 32 bytes (44_modes.md R183). -/
theorem exec_initKeyedHashOf {key : List Byte} (h : key.length = 32) (s : State) : exec (initKeyedHashOf key) s =
    .next ((s.startSession (s.session.init (cvOfWords (wordsLe key)) flagKeyedHash)).finishOk 11) := by
  have hlen : (lenOfBytes key).toNat = 32 := (lenOfBytes_toNat (by omega)).trans h
  have hexec := execInitKeyedHash_ok (lenOfBytes key) (packBytes key) s hlen
  rwa [payloadBytes_packBytes (by omega)] at hexec

/-- `INIT_KEYED_HASH` of a packed key of another length (44_modes.md R187). -/
theorem exec_initKeyedHashOf_error {key : List Byte} (h : key.length ≠ 32) (hlt : key.length < 2 ^ 64) (s : State) :
    exec (initKeyedHashOf key) s = .next (s.raise .invalidKeyLength (3 + (key.length + 3) / 4)) := by
  have hlen := lenOfBytes_toNat hlt
  rw [← hlen] at h ⊢
  exact execInitKeyedHash_error _ _ s h

/-- A command that needs a session, without one (60_exceptions.md R206). -/
theorem exec_noEngine {i : Instr} {s : State} (hop : i.op = .absorb ∨ i.op = .squeeze ∨ i.op = .reset)
    (h : s.engineValid = false) : exec i s = .next (s.raise .noEngine i.nWords) := by
  cases i with
  | initHash | initKeyedHash | initKdf => simp at hop
  | absorb len pw =>
    rw [Instr.nWords_absorb]
    exact execAbsorb_noEngine len pw s h
  | squeeze len =>
    rw [Instr.nWords_squeeze]
    exact execSqueeze_noEngine len s h
  | reset =>
    rw [Instr.nWords_reset]
    exact execReset_noEngine s h

/-- Of two errors in a row the second gives the result (60_exceptions.md R203). -/
theorem State.raise_raise (s : State) (c c' : ResultCode) (n n' : Nat) : (s.raise c n).raise c' n' = s.raise c' (n + n') := by
  simp only [State.raise, Nat.add_assoc]

/-- Without a session `ABSORB` and `SQUEEZE` write `STATUS` and `CP` alone (60_exceptions.md R206). -/
theorem execAll_absorb_squeeze_noEngine {s : State} (h : s.engineValid = false) (data : List Byte) (n : BitVec 64) :
    ∃ words, execAll [absorbOf data, .squeeze n] s = .next (s.raise .noEngine words) := by
  have habsorb : exec (absorbOf data) s = _ := exec_noEngine (.inl rfl) h
  have hsqueeze : exec (.squeeze n) (s.raise .noEngine (absorbOf data).nWords) = _ := exec_noEngine (.inr (.inl rfl)) h
  refine ⟨(absorbOf data).nWords + (Instr.squeeze n).nWords, ?_⟩
  rw [execAll_cons_next habsorb, execAll_cons_next hsqueeze, execAll, State.raise_raise]

/-- `INIT_KDF` of a packed context (44_modes.md R184). -/
theorem exec_initKdfOf {context : List Byte} (h : context.length < 2 ^ 64) (s : State) :
    ∃ (ses : Session) (words : Nat), exec (initKdfOf context) s =
      .next ((s.startSession (ses.init (contextKey context) flagDeriveKeyMaterial)).finishOk words) := by
  obtain ⟨ses, hexec⟩ := exec_initKdf (lenOfBytes context) (packBytes context) s
  rw [payloadBytes_packBytes h] at hexec
  exact ⟨ses, _, hexec⟩

/-- Settles O48: each pseudo-command with its construction, successful or not. -/
theorem keyedHashAndDeriveKeyGiveTheTreeOutput : Obligations.KeyedHashAndDeriveKeyGiveTheTreeOutput := by
  refine ⟨fun s key data hkeyLen hlt => ?_, fun s key data hkeyLen hkeyLt => ?_, fun s key data hkeyLen hkeyLt hvalid => ?_,
    fun s context material m hcontext hmaterial => ?_⟩
  · obtain ⟨t, hexec, hout, hresult, -, hvalid, hholds, hkey, hflags⟩ := execAll_oneShot (exec_initKeyedHashOf hkeyLen s) hlt 32
    refine ⟨t, hexec, hout.trans (congrArg (s.out ++ ·) (packBytes_digest _)), hresult, hvalid, hholds, hflags, ?_⟩
    rw [hkey, cvOfWords_toList (by rw [wordsLe_length, hkeyLen])]
  · exact execAll_cons_next (exec_initKeyedHashOf_error hkeyLen hkeyLt s) _
  · obtain ⟨words, hexec⟩ := execAll_absorb_squeeze_noEngine
      (s := s.raise .invalidKeyLength (3 + (key.length + 3) / 4)) hvalid data 32
    exact ⟨_, (execAll_cons_next (exec_initKeyedHashOf_error hkeyLen hkeyLt s) _).trans hexec, rfl, rfl⟩
  · obtain ⟨ses, words, hinit⟩ := exec_initKdfOf hcontext s
    obtain ⟨t, hexec, hout, hresult, -, hvalid, hholds, -, hflags⟩ := execAll_oneShot hinit hmaterial m
    exact ⟨t, hexec, hout, hresult, hvalid, hholds, hflags⟩

end Sys2Proof.Machine

/-! Errors and safety: the command whose words are still missing, that no step of a legal core faults, what every error writes, and
the result of every command from its checks (60_exceptions.md R201 to R210; 42_tree.md R147). -/

namespace Sys2Proof

/-! ### The verdict on a header -/

/-- Whatever follows the header, a payload is read or incomplete, never an illegal header (60_exceptions.md R202). -/
theorem decodePayload_ne_illegalHeader (mk : BitVec 64 → List Word → Instr) (ws : List Word) :
    decodePayload mk ws ≠ .error .illegalHeader := by
  intro h
  match ws, h with
  | [], h | [_], h => cases h
  | lo :: hi :: ws, h =>
    change (if ws.length < payloadWords (lenOf lo hi) then _ else _) = _ at h
    split at h <;> cases h

/-- A word sequence is rejected as illegal for its header alone (30_encoding.md R77). -/
theorem decode_eq_illegalHeader_iff (w : Word) (ws : List Word) :
    decode (w :: ws) = .error .illegalHeader ↔ Op.ofHeader w = none := by
  constructor
  · intro h
    cases hop : Op.ofHeader w with
    | none => rfl
    | some op =>
      rw [Op.ofHeader_eq_some_iff] at hop
      subst hop
      cases op with
      | initHash | reset => cases h
      | initKeyedHash => exact absurd ((decode_initKeyedHash_header ws).symm.trans h) (decodePayload_ne_illegalHeader _ ws)
      | initKdf => exact absurd ((decode_initKdf_header ws).symm.trans h) (decodePayload_ne_illegalHeader _ ws)
      | absorb => exact absurd ((decode_absorb_header ws).symm.trans h) (decodePayload_ne_illegalHeader _ ws)
      | squeeze =>
        match ws, h with
        | [], h | [_], h | _ :: _ :: _, h => cases h
  · intro hop
    simp only [decode, hop]

/-- Words that arrive after an illegal header do not make it legal (30_encoding.md R77). -/
theorem decode_append_of_illegalHeader {ws : List Word} (h : decode ws = .error .illegalHeader) (more : List Word) :
    decode (ws ++ more) = .error .illegalHeader := by
  match ws, h with
  | w :: ws, h => exact (decode_eq_illegalHeader_iff w (ws ++ more)).mpr ((decode_eq_illegalHeader_iff w ws).mp h)

/-- Words that arrive after a command do not change it (20_memory.md R52). -/
theorem decode_append_of_ok {ws rest : List Word} {i : Instr} (h : decode ws = .ok (i, rest)) (more : List Word) :
    decode (ws ++ more) = .ok (i, rest ++ more) := by
  obtain ⟨hwf, rfl⟩ := decode_cases h
  rw [List.append_assoc]
  exact decode_encode_append hwf (rest ++ more)

/-- Of the words of a command no part short of all is a command or an illegal header (60_exceptions.md R209). -/
theorem decode_of_missing_words {i : Instr} {received missing : List Word} (hwf : i.WellFormed)
    (hencode : encode i = received ++ missing) (hmissing : missing ≠ []) : decode received = .error .incomplete := by
  have hwhole : decode (received ++ missing) = .ok (i, []) := by
    rw [← hencode, ← List.append_nil (encode i)]
    exact decode_encode_append hwf []
  rcases hpart : decode received with (_ | _) | ⟨j, rest⟩
  · rw [decode_append_of_illegalHeader hpart] at hwhole
    cases hwhole
  · rfl
  · rw [decode_append_of_ok hpart] at hwhole
    injection hwhole with hwhole
    exact absurd (List.append_eq_nil_iff.mp (congrArg Prod.snd hwhole)).2 hmissing

end Sys2Proof

namespace Sys2Proof.Machine

/-! ### The three kinds of step -/

theorem step_of_decode_illegalHeader {s : State} (h : decode s.fetch = .error .illegalHeader) : step s = .next s.illegalCommand := by
  rw [step, h]

theorem step_of_decode_incomplete {s : State} (h : decode s.fetch = .error .incomplete) : step s = .next s := by
  rw [step, h, State.hold_eq]

/-! ### The command whose words are missing -/

/-- Words delivered are read after those received before (20_memory.md R52). -/
theorem State.fetch_receive {s : State} (h : s.cp ≤ s.stream.length) (ws : List Word) :
    (s.receive ws).fetch = s.fetch ++ ws :=
  List.drop_append_of_le_length h

/-- After an error the words read next are those after the command (60_exceptions.md R203). -/
theorem State.fetch_raise (s : State) (c : ResultCode) (n : Nat) : (s.raise c n).fetch = s.fetch.drop n := by
  rw [State.fetch, State.fetch, List.drop_drop, State.raise_stream, State.raise_cp]

/-- Settles O10: what has come is not yet a command, and with the missing words it is the command's encoding. -/
theorem incompleteCommandIsHeldUntilItsWordsArrive : Obligations.IncompleteCommandIsHeldUntilItsWordsArrive := by
  intro s i received missing hwf hencode hmissing hcp hfetch
  constructor
  · exact step_of_decode_incomplete (hfetch ▸ decode_of_missing_words hwf hencode hmissing)
  · refine step_of_fetch_encode hwf (rest := []) ?_
    rw [State.fetch_receive hcp, hfetch, hencode, List.append_nil]

/-! ### The internal faults -/

/-- `ABSORB` completes: one of its checks fails, or its input is within the bound, where no merge faults (42_tree.md R147). -/
theorem exec_absorb_completes {s : State} (h : s.engineValid = true → s.session.Legal) (len : BitVec 64) (pw : List Word) :
    ∃ t, exec (.absorb len pw) s = .next t := by
  rcases hvalid : s.engineValid with _ | _
  · exact ⟨_, execAbsorb_noEngine len pw s hvalid⟩
  rcases Nat.lt_or_ge (2 ^ 64) (s.session.totalAbsorbed + len.toNat) with hover | hmax
  · exact ⟨_, execAbsorb_inputLimit len pw s hvalid hover⟩
  · have hlen := payloadBytes_length_le len pw
    obtain ⟨ses, hdata, -⟩ := (h hvalid).inputData_ok (payloadBytes len pw) (by omega)
    exact ⟨_, execAbsorb_ok len pw s ses hvalid hmax hdata⟩

/-- Over a legal session, or none, every command completes, whatever its operands (60_exceptions.md R210). -/
theorem exec_completes {s : State} (h : s.engineValid = true → s.session.Legal) (i : Instr) : ∃ t, exec i s = .next t := by
  cases i with
  | initHash => exact ⟨_, execInitHash_eq s⟩
  | initKeyedHash len pw =>
    by_cases hlen : len.toNat = 32
    · exact ⟨_, execInitKeyedHash_ok len pw s hlen⟩
    · exact ⟨_, execInitKeyedHash_error len pw s hlen⟩
  | initKdf len pw =>
    obtain ⟨ses, hexec⟩ := exec_initKdf len pw s
    exact ⟨_, hexec⟩
  | absorb len pw => exact exec_absorb_completes h len pw
  | squeeze len =>
    rcases hvalid : s.engineValid with _ | _
    · exact ⟨_, execSqueeze_noEngine len s hvalid⟩
    · exact ⟨_, execSqueeze_ok len s hvalid⟩
  | reset =>
    rcases hvalid : s.engineValid with _ | _
    · exact ⟨_, execReset_noEngine s hvalid⟩
    · exact ⟨_, execReset_ok s hvalid⟩

/-- Settles O53: a step executes a command, which completes over a legal session; at an illegal header or an incomplete command it
cannot fault at all. -/
theorem noStepFaultsUnderTheInvariant : Obligations.NoStepFaultsUnderTheInvariant := by
  intro s hinv
  rcases hdecode : decode s.fetch with (_ | _) | ⟨i, rest⟩
  · exact ⟨_, step_of_decode_illegalHeader hdecode⟩
  · exact ⟨_, step_of_decode_incomplete hdecode⟩
  · rw [step_of_decode hdecode]
    exact exec_completes hinv.session i

/-! ### Errors -/

/-- A command with another result than success did what `raise` does, for one of the three reasons of checks 3 to 5
(60_exceptions.md R202, R203). -/
theorem exec_error_cases {i : Instr} {s t : State} (h : exec i s = .next t) (hne : t.result ≠ .ok) :
    t = s.raise t.result i.nWords ∧
      ((t.result = .invalidKeyLength ∧ ∃ len pw, i = .initKeyedHash len pw ∧ len.toNat ≠ 32) ∨
       (t.result = .noEngine ∧ s.engineValid = false ∧ (i.op = .absorb ∨ i.op = .squeeze ∨ i.op = .reset)) ∨
       (t.result = .inputLimit ∧ s.engineValid = true ∧
          ∃ len pw, i = .absorb len pw ∧ 2 ^ 64 < s.session.totalAbsorbed + len.toNat)) := by
  rcases exec_cases h with ⟨c, -, rfl, hreason⟩ | ⟨-, rfl⟩ | ⟨len, pw, -, -, rfl⟩ | ⟨len, pw, context, -, -, rfl⟩ |
    ⟨len, pw, ses, -, -, -, -, rfl⟩ | ⟨len, -, -, rfl⟩ | ⟨-, -, rfl⟩
  · exact ⟨rfl, hreason⟩
  all_goals exact absurd rfl hne

/-- Settles O12: errors of commands and illegal headers alike are a `raise`. -/
theorem errorChangesOnlyStatusAndCp : Obligations.ErrorChangesOnlyStatusAndCp := by
  refine ⟨fun i s t h hne => ?_, fun s hillegal => ?_⟩
  · obtain ⟨ht, -⟩ := exec_error_cases h hne
    exact ⟨ht, (congrArg State.fetch ht).trans (s.fetch_raise t.result i.nWords)⟩
  · exact ⟨_, step_of_decode_illegalHeader hillegal, rfl, s.fetch_illegalCommand⟩

/-- Settles O13: each way a command can end has passed or failed just the checks that its result names. -/
theorem resultIsTheFirstFailedCheck : Obligations.ResultIsTheFirstFailedCheck := by
  intro i s t h
  constructor
  · rcases exec_cases h with ⟨c, -, rfl, ⟨rfl, len, pw, rfl, hlen⟩ | ⟨rfl, hvalid, hop⟩ | ⟨rfl, hvalid, len, pw, rfl, hover⟩⟩ |
      ⟨rfl, rfl⟩ | ⟨len, pw, rfl, hlen, rfl⟩ | ⟨len, pw, context, rfl, -, rfl⟩ | ⟨len, pw, ses, rfl, hvalid, hmax, -, rfl⟩ |
      ⟨len, rfl, hvalid, rfl⟩ | ⟨rfl, hvalid, rfl⟩
    · exact (if_neg hlen).symm
    · cases i with
      | initHash | initKeyedHash | initKdf => simp at hop
      | absorb | squeeze | reset => exact (if_pos hvalid).symm
    · exact ((if_neg (by simp [hvalid])).trans (if_pos hover)).symm
    · rfl
    · exact (if_pos hlen).symm
    · rfl
    · exact ((if_neg (by simp [hvalid])).trans (if_neg (Nat.not_lt.mpr hmax))).symm
    · exact (if_neg (by simp [hvalid])).symm
    · exact (if_neg (by simp [hvalid])).symm
  · intro hok
    rcases exec_sticky h with ⟨hne, -⟩ | ⟨-, herr⟩
    · exact absurd hok hne
    · exact herr

/-- Settles O18: the three commands make the check, and of the three reasons for an error only this one has the result. -/
theorem noEngineExactlyWithoutASession : Obligations.NoEngineExactlyWithoutASession := by
  refine ⟨fun i s hvalid hop => exec_noEngine hop hvalid, fun i s t h hres => ?_⟩
  obtain ⟨-, ⟨hother, -⟩ | ⟨-, hreason⟩ | ⟨hother, -⟩⟩ := exec_error_cases h (by simp [hres])
  · simp [hres] at hother
  · exact hreason
  · simp [hres] at hother

/-- Settles O37: `ABSORB` makes the check, and of the three reasons for an error only this one has the result. -/
theorem inputLimitExactlyPastTheMaximum : Obligations.InputLimitExactlyPastTheMaximum := by
  refine ⟨fun s len pw hvalid hover => execAbsorb_inputLimit len pw s hvalid hover, fun i s t h hres => ?_⟩
  obtain ⟨-, ⟨hother, -⟩ | ⟨hother, -⟩ | ⟨-, hreason⟩⟩ := exec_error_cases h (by simp [hres])
  · simp [hres] at hother
  · simp [hres] at hother
  · exact hreason

/-- Settles O21, from the meaning's equation for a key of another length. -/
theorem wrongKeyLengthLeavesThePreviousSession : Obligations.WrongKeyLengthLeavesThePreviousSession :=
  fun s len pw hlen => execInitKeyedHash_error len pw s hlen

end Sys2Proof.Machine

/-! Hazards and the end of a run: what a `SQUEEZE` leaves for an `ABSORB` after it, and that every step which does not leave the core
at rest takes words from the stream (70_reset_and_hazards.md R235, R242; 60_exceptions.md R209). -/

namespace Sys2Proof

/-- Every command has its header word (30_encoding.md R76). -/
theorem Instr.nWords_pos (i : Instr) : 0 < i.nWords := by
  cases i <;> simp

end Sys2Proof

namespace Sys2Proof.Machine

/-! ### `ABSORB` after `SQUEEZE` -/

/-- `SQUEEZE` writes neither the session nor `ENGINE_VALID` (43_output.md R165). -/
theorem execSqueeze_frame {len : BitVec 64} {s t : State} (h : execSqueeze len s = .next t) :
    t.session = s.session ∧ t.engineValid = s.engineValid := by
  rcases hvalid : s.engineValid with _ | _
  · rw [execSqueeze_noEngine len s hvalid] at h
    cases h
    exact ⟨rfl, hvalid⟩
  · rw [execSqueeze_ok len s hvalid] at h
    cases h
    exact ⟨rfl, hvalid⟩

/-- `ABSORB` reads only the session and `ENGINE_VALID`: states that agree there agree there after it, and in its result
(42_tree.md R141). -/
theorem execAbsorb_agree_of_session {s t : State} (hses : t.session = s.session) (hvalid : t.engineValid = s.engineValid)
    (len : BitVec 64) (pw : List Word) :
    OutcomesAgree (fun a b => a.session = b.session ∧ a.engineValid = b.engineValid ∧ a.result = b.result)
      (execAbsorb len pw t) (execAbsorb len pw s) := by
  rcases hs : s.engineValid with _ | _
  · rw [execAbsorb_noEngine len pw s hs, execAbsorb_noEngine len pw t (hvalid.trans hs)]
    exact ⟨hses, hvalid, rfl⟩
  have ht := hvalid.trans hs
  rcases Nat.lt_or_ge (2 ^ 64) (s.session.totalAbsorbed + len.toNat) with hover | hmax
  · rw [execAbsorb_inputLimit len pw s hs hover, execAbsorb_inputLimit len pw t ht (hses ▸ hover)]
    exact ⟨hses, hvalid, rfl⟩
  rcases hdata : s.session.inputData (payloadBytes len pw) with f | ses
  · rw [execAbsorb_fault len pw s f hs hmax hdata, execAbsorb_fault len pw t f ht (hses ▸ hmax) (hses ▸ hdata)]
    exact rfl
  · rw [execAbsorb_ok len pw s ses hs hmax hdata, execAbsorb_ok len pw t ses ht (hses ▸ hmax) (hses ▸ hdata)]
    exact ⟨rfl, hvalid, rfl⟩

/-- Settles O46: `SQUEEZE` leaves all that `ABSORB` reads. -/
theorem absorbAfterSqueezeContinues : Obligations.AbsorbAfterSqueezeContinues := by
  intro s t n len pw hsqueeze
  obtain ⟨hses, hvalid⟩ := execSqueeze_frame hsqueeze
  exact execAbsorb_agree_of_session hses hvalid len pw

/-! ### The end of a run -/

/-- A core at rest stays at rest, by steps to the same state (70_reset_and_hazards.md R242). -/
theorem State.AtRest.step {s : State} (h : s.AtRest) : step s = .next s := step_of_decode_incomplete h

theorem State.AtRest.run {s : State} (h : s.AtRest) (k : Nat) : Host.Core.run core k s = .next s := by
  induction k with
  | zero => exact run_zero s
  | succ k ih => rw [run_succ_next k s s h.step, ih]

/-- With no word left to read the core is at rest. -/
theorem State.atRest_of_fetch_nil {s : State} (h : s.fetch = []) : s.AtRest := by
  rw [State.AtRest, h, decode_nil]

/-- A step of a core that is not at rest takes at least one word (30_encoding.md R76, R77). -/
theorem step_atRest_or_takes_words {s t : State} (h : step s = .next t) :
    s.AtRest ∨ t.fetch.length < s.fetch.length := by
  rcases step_cases h with ⟨i, rest, hdecode, hexec⟩ | ⟨hillegal, rfl⟩ | ⟨hincomplete, -⟩
  · obtain ⟨hcp, hstream⟩ := exec_cp_stream hexec
    have hwords := decode_length hdecode
    have hpos := i.nWords_pos
    rw [s.fetch_length] at hwords ⊢
    rw [t.fetch_length, hcp, hstream]
    exact .inr (by omega)
  · have hne : s.fetch ≠ [] := fun hnil => by rw [hnil, decode_nil] at hillegal; cases hillegal
    have hpos := List.length_pos_iff.mpr hne
    rw [s.fetch_illegalCommand, List.length_drop]
    exact .inr (by omega)
  · exact .inl hincomplete

/-- As many steps as words left bring a state of the invariant to rest (70_reset_and_hazards.md R242). -/
theorem State.Inv.run_atRest {s : State} (h : s.Inv) {k : Nat} (hk : s.fetch.length ≤ k) :
    ∃ t, Host.Core.run core k s = .next t ∧ t.AtRest := by
  induction k generalizing s with
  | zero => exact ⟨s, run_zero s, State.atRest_of_fetch_nil (List.length_eq_zero_iff.mp (Nat.le_zero.mp hk))⟩
  | succ k ih =>
    obtain ⟨t, hstep⟩ := noStepFaultsUnderTheInvariant s h
    rcases step_atRest_or_takes_words hstep with hrest | hless
    · exact ⟨s, hrest.run (k + 1), hrest⟩
    · rw [run_succ_next k s t hstep]
      exact ih (h.step hstep) (by omega)

/-- Settles O56: every step that does not find the core at rest takes words, and at rest a step changes nothing. -/
theorem runEndsWithinTheWordsLeft : Obligations.RunEndsWithinTheWordsLeft := by
  intro s k h hk
  obtain ⟨t, hrun, hrest⟩ := h.run_atRest (s.fetch_length.trans_le hk)
  exact ⟨t, hrun, hrest, hrest.step⟩

end Sys2Proof.Machine
